-- ==== Sys2Proof/Word.lean ====
section
/-! DEFINITION. The two word types of the machine (spec/00_scope.md R6, section 6). Arithmetic on them is
`BitVec`'s own, which is modulo `2 ^ width`; nothing in the machine is signed. -/

namespace Sys2Proof

/-- A byte: the content of a memory cell and the width of every instruction field, 0 to 255 (R6, R61). -/
abbrev Byte := BitVec 8

/-- A word: a register's content and a logical address presented to the ATU, 0 to 65535 (R6, R10). -/
abbrev Word := BitVec 16

end Sys2Proof
end

