-- ==== Sys2Proof/Config.lean ====
section
/-! DEFINITION. What an implementation of the core fixes and the spec leaves open (spec/00_scope.md section 4).
`TT_CAPACITY` (R7) is no constant: the translation table of the model is an unbounded list (log 8). -/

namespace Sys2Proof

/-- `MEM_INIT` (spec/00_scope.md R8, decision D16): the byte a physical cell holds before anything has written
it. A FREE VALUE for each cell: the constant has no body, so no proof can learn a value of it, and whatever is
proved holds for every `MEM_INIT`. DESIGN CHOICE, safe (log 2). -/
opaque Config.memInit : Nat → Byte

/-- The `N` of the one power-on state that `State.reset` must be (spec/00_scope.md R5, decision D2: `N` is an
open parameter, "e.g. 20 or 26"). DESIGN CHOICE, unsafe: a claim about `State.reset` alone may lean on it
(log 1). Everything else takes `N` from the state. -/
def Config.resetPhysSize : Nat := 26

end Sys2Proof
end

