-- ==== Sys2Proof/Machine/State.lean ====
section
/-! DEFINITION. The state of the machine as plain data (spec/10_state.md, which lists all of it), the reasons a
request or a step can stop, the power-on state (R24, left column) and `State.reset`. -/

namespace Sys2Proof.Machine

/-- The two values of a process record's `state` (spec/10_state.md R16). -/
inductive ProcState where
  | running
  | halted
  deriving DecidableEq, Repr

/-- A process record of `PROC` (spec/10_state.md R16). -/
structure Proc where
  /-- The process's id, a unique positive integer. -/
  id : Nat
  /-- Whether the process is running or halted. -/
  state : ProcState
  deriving DecidableEq, Repr

/-- An entry of the translation table: naturals, compared and added without wrap-around (spec/10_state.md R19,
spec/00_scope.md R6, spec/20_memory.md R41). -/
structure TTEntry where
  /-- The owner process. -/
  pid : Nat
  /-- The first logical address of the range. -/
  logicalBase : Nat
  /-- The number of bytes in the range. -/
  length : Nat
  /-- The physical address of the byte at `logicalBase`. -/
  physicalBase : Nat
  deriving DecidableEq, Repr

/-- The values of `FAULT_CAUSE` (spec/10_state.md R17); their codes are `FaultCause.code`. -/
inductive FaultCause where
  | none
  | translationFault
  | invalidOpcode
  | invalidRegister
  | physicalRangeFault
  deriving DecidableEq, Repr

/-- Physical memory: the cells that something has written, by rising address. A cell that is not listed has been
written by nothing and holds its `MEM_INIT` byte (log 2). -/
abbrev Memory := List Host.Cell

/-- The whole state of the machine (spec/10_state.md R10 to R21). -/
structure State where
  /-- PC, which is register `x[0]` (R10, R13). -/
  pc : Word
  /-- R1, which is register `x[1]` (R10, R12). -/
  r1 : Word
  /-- R2, which is register `x[2]` (R10, R12). -/
  r2 : Word
  /-- `HALT_FLAG`: a fetch cycle begins only while it is clear (R15). -/
  haltFlag : Bool
  /-- `FAULT_CAUSE`, half of the fault latch (R17). -/
  faultCause : FaultCause
  /-- `FAULT_INFO`, the other half: a natural below 131072 whose meaning depends on the cause (R17). -/
  faultInfo : Nat
  /-- `CUR_PID`: the id of the current process (R18). -/
  curPid : Nat
  /-- `PROC`: the process records, in order of creation (R16; log 9). -/
  procs : List Proc
  /-- `TT`: the translation table (R19). -/
  tt : List TTEntry
  /-- `NEXT_PID`: the id the next loaded process will get (R20). -/
  nextPid : Nat
  /-- The byte `M[pa]` of each physical cell (R21). -/
  mem : Memory
  /-- The occupancy markers `OCC[pa]` (R21): the addresses of the occupied cells, rising (log 9). -/
  occ : List Nat
  /-- `N` (`PHYS_SIZE`), the number of physical cells: a parameter fixed at power-on, held here so that a claim
  about every state is a claim about every `N` (spec/00_scope.md R5; log 1). -/
  physSize : Nat
  /-- The ids of the processes whose load ran out of memory, in the order of their loads: what `start` needs to refuse
  them (spec/70_reset_and_hazards.md R172, spec/93_implementation_defined.md U14). The model's own field (log 12). -/
  abortedLoads : List Nat
  deriving DecidableEq, Repr

/-- The reasons a step could stop with a fault. There is none: every fault of this hardware has an entry that the
spec describes (spec/60_exceptions.md R140), so raising it is a next state of the machine with the fault latched
and `HALT_FLAG` set (`takeFault`). No definition of the model raises a value of this type, and none could: its
emptiness is safe, and says that no step of the machine stops (log 5). -/
inductive Fault where
  deriving DecidableEq, Repr

/-- The reasons a request or a step can be refused. -/
inductive Refusal where
  /-- Raised by an arm of `exec` whose instruction has no meaning yet; there is no such arm. Safe. -/
  | notModelled (mnemonic : String)
  /-- Raised by `start` when `HALT_FLAG` is clear: a run is in progress (spec/70_reset_and_hazards.md R163). The
  spec refuses the request and nothing changes. Safe. -/
  | startWhileRunning
  /-- Raised by `start` when `PROC` has no record with the pid (spec/70_reset_and_hazards.md R163). The spec
  refuses the request and nothing changes. Safe. -/
  | startUnknownProcess (pid : Nat)
  /-- Raised by `start` when the load of the pid ran out of memory (spec/70_reset_and_hazards.md R172: the host must
  not start it; spec/93_implementation_defined.md U14: `refuse`). Nothing changes. Safe (log 12). -/
  | startAbortedLoad (pid : Nat)
  deriving DecidableEq, Repr

/-- The state after power-on of a machine with `n` physical cells (spec/10_state.md R24, left column;
spec/70_reset_and_hazards.md R160). The registers and `CUR_PID`, which R24 leaves unspecified there, are 0:
DESIGN CHOICE, unsafe (log 3). -/
def State.powerOn (n : Nat) : State where
  pc := 0
  r1 := 0
  r2 := 0
  haltFlag := true
  faultCause := .none
  faultInfo := 0
  curPid := 0
  procs := []
  tt := []
  nextPid := 1
  mem := []
  occ := []
  physSize := n
  abortedLoads := []

/-- The machine right after reset: power-on (spec/10_state.md R24) with the `N` of `Config.resetPhysSize`
(DESIGN CHOICE, unsafe: log 1). No cycle runs from it before a `start`. -/
def State.reset : State := State.powerOn Config.resetPhysSize

end Sys2Proof.Machine
end

