-- ==== Sys2Proof/Machine/Ops.lean ====
section
/-! DEFINITION. The named operations over registers, memory, the translation table and the control state, among
them taking a fault (spec/60_exceptions.md R140) and, in the place of a return from one, the Executor start
(spec/70_reset_and_hazards.md R163). -/

namespace Sys2Proof.Machine

/-! ## Faults -/

/-- A fault raised inside a fetch cycle, with the value it records (spec/60_exceptions.md R131 to R134). -/
inductive Exc where
  /-- No entry, or more than one, of the current process contains the logical address (R131). -/
  | translationFault (la : Word)
  /-- The byte fetched as an opcode is none of the six (R132). -/
  | invalidOpcode (op : Byte)
  /-- A register operand byte above 2 (R133). -/
  | invalidRegister (r : Byte)
  /-- A physical address at or above `N` reached the memory port (R134). -/
  | physicalRangeFault (pa : Nat)
  deriving DecidableEq, Repr

/-- The cause that a fault latches (spec/60_exceptions.md R131 to R134). -/
def Exc.cause : Exc → FaultCause
  | .translationFault _ => .translationFault
  | .invalidOpcode _ => .invalidOpcode
  | .invalidRegister _ => .invalidRegister
  | .physicalRangeFault _ => .physicalRangeFault

/-- The value that a fault latches (spec/60_exceptions.md R131 to R134). -/
def Exc.info : Exc → Nat
  | .translationFault la => la.toNat
  | .invalidOpcode op => op.toNat
  | .invalidRegister r => r.toNat
  | .physicalRangeFault pa => pa

/-- The numeric codes of `FAULT_CAUSE` (spec/10_state.md R17, spec/60_exceptions.md R137). -/
def FaultCause.code : FaultCause → Nat
  | .none => 0
  | .translationFault => 1
  | .invalidOpcode => 2
  | .invalidRegister => 3
  | .physicalRangeFault => 4

/-! ## Registers -/

/-- The three registers (spec/10_state.md R10). -/
inductive Reg where
  | pc
  | r1
  | r2
  deriving DecidableEq, Repr

/-- `x[i]` as a source (spec/00_scope.md section 6). -/
def State.readReg (s : State) : Reg → Word
  | .pc => s.pc
  | .r1 => s.r1
  | .r2 => s.r2

/-- `x[i] <- v` (spec/00_scope.md section 6). No register is hardwired (spec/10_state.md R10). -/
def State.writeReg (s : State) (r : Reg) (v : Word) : State :=
  match r with
  | .pc => { s with pc := v }
  | .r1 => { s with r1 := v }
  | .r2 => { s with r2 := v }

/-- `pc <- (pc + n) mod 65536` (spec/40_execution_loop.md R82, R84, R86). -/
def State.advancePc (s : State) (n : Nat) : State :=
  { s with pc := s.pc + BitVec.ofNat 16 n }

/-! ## Bytes and words -/

/-- `zext_16(b)`: the word of the same value (spec/00_scope.md section 6). -/
def zext16 (b : Byte) : Word := b.setWidth 16

/-- `lo + 256 * hi` (spec/20_memory.md R34). -/
def wordOfBytes (lo hi : Byte) : Word := BitVec.ofNat 16 (lo.toNat + 256 * hi.toNat)

/-- Bits 7:0 of a word (spec/20_memory.md R34, R39). -/
def lowByte (v : Word) : Byte := v.extractLsb' 0 8

/-- Bits 15:8 of a word (spec/20_memory.md R34, R39). -/
def highByte (v : Word) : Byte := v.extractLsb' 8 8

/-! ## Physical memory -/

/-- The byte listed at an address, if something has written that cell. -/
def Memory.lookup : Memory → Nat → Option Byte
  | [], _ => none
  | (a, b) :: m, k => if k = a then some b else Memory.lookup m k

/-- What a cell that nothing has written reads as: its `MEM_INIT` byte, a free value (spec/00_scope.md R8,
spec/20_memory.md R33; log 2). -/
def Memory.unwritten (a : Nat) : Byte := Config.memInit a

/-- The byte `M[a]` (spec/20_memory.md R31, R33). -/
def Memory.read (m : Memory) (a : Nat) : Byte :=
  match Memory.lookup m a with
  | some b => b
  | none => Memory.unwritten a

/-- `M[k] <- v` (spec/20_memory.md R32), keeping the list's canonical form. -/
def Memory.write : Memory → Nat → Byte → Memory
  | [], k, v => [(k, v)]
  | (a, b) :: m, k, v =>
    if k < a then (k, v) :: (a, b) :: m
    else if k = a then (k, v) :: m
    else (a, b) :: Memory.write m k v

/-- The canonical form of a memory: addresses strictly rising. A listed cell is one that something has written, an
unlisted cell one that nothing has written, so no entry says what an unlisted address says (log 2). -/
abbrev Memory.wf (m : Memory) : Prop := m.Pairwise (fun c d => c.1 < d.1)

/-- Bytes written one after another from an address up (spec/70_reset_and_hazards.md R165, R170). -/
def Memory.writeBytes : Memory → Nat → List Byte → Memory
  | m, _, [] => m
  | m, a, b :: bs => Memory.writeBytes (Memory.write m a b) (a + 1) bs

/-- `PhysRead(pa)` (spec/20_memory.md R31). The occupancy marker is not looked at (R33). -/
def physRead (s : State) (pa : Nat) : Except Exc Byte :=
  if pa < s.physSize then .ok (s.mem.read pa) else .error (.physicalRangeFault pa)

/-- `PhysWrite(pa, b)` (spec/20_memory.md R32). The occupancy marker is not changed (R33). -/
def physWrite (s : State) (pa : Nat) (b : Byte) : Except Exc State :=
  if pa < s.physSize then .ok { s with mem := s.mem.write pa b } else .error (.physicalRangeFault pa)

/-! ## The address translation unit -/

/-- The entry belongs to the process and its logical range contains the address, in arithmetic without wrap-around
(spec/20_memory.md R42). -/
def TTEntry.hits (e : TTEntry) (pid : Nat) (la : Word) : Bool :=
  e.pid == pid && decide (e.logicalBase ≤ la.toNat) && decide (la.toNat < e.logicalBase + e.length)

/-- `Translate(pid, la)` (spec/20_memory.md R42): the one entry of the process that contains the address places it;
no such entry, or two of them (R43), is a fault. No permission is checked (R44) and nothing is cached (R48). -/
def translateAddr (tt : List TTEntry) (pid : Nat) (la : Word) : Except Exc Nat :=
  match tt.filter (fun e => e.hits pid la) with
  | [e] => .ok (e.physicalBase + (la.toNat - e.logicalBase))
  | _ => .error (.translationFault la)

/-- `tt_register` (spec/20_memory.md R41): appends an entry and checks nothing. Invoked by the host only. -/
def ttRegister (s : State) (e : TTEntry) : State := { s with tt := s.tt ++ [e] }

/-! ## Logical accesses of the current process -/

/-- `MemRead(la, 1)` (spec/20_memory.md R37). -/
def memReadByte (s : State) (la : Word) : Except Exc Byte := do
  let pa ← translateAddr s.tt s.curPid la
  physRead s pa

/-- `MemRead(la, 2)` (spec/20_memory.md R38): one translation; the high byte is the next PHYSICAL cell. -/
def memReadWord (s : State) (la : Word) : Except Exc Word := do
  let pa ← translateAddr s.tt s.curPid la
  let lo ← physRead s pa
  let hi ← physRead s (pa + 1)
  .ok (wordOfBytes lo hi)

/-- `MemWrite(la, 2, v)` (spec/20_memory.md R39): one translation; both range checks come before the first write;
low byte first, then the high byte at the next PHYSICAL cell. -/
def memWriteWord (s : State) (la : Word) (v : Word) : Except Exc State := do
  let pa ← translateAddr s.tt s.curPid la
  if s.physSize ≤ pa then .error (.physicalRangeFault pa)
  else if s.physSize ≤ pa + 1 then .error (.physicalRangeFault (pa + 1))
  else do
    let s' ← physWrite s pa (lowByte v)
    physWrite s' (pa + 1) (highByte v)

/-! ## Process records, stopping, fault entry and start -/

/-- `PROC[pid].state <- st` (spec/10_state.md R16): every other record is kept, and where no record has the id
nothing changes (log 7). -/
def setProcState (procs : List Proc) (pid : Nat) (st : ProcState) : List Proc :=
  procs.map (fun p => if p.id = pid then { p with state := st } else p)

/-- `HALT_FLAG <- 1` and, at the same moment, `PROC[CUR_PID].state <- halted` (spec/10_state.md R15, R16): what HALT
and every fault do. -/
def State.stopCurrent (s : State) : State :=
  { s with haltFlag := true, procs := setProcState s.procs s.curPid .halted }

/-- TAKING A FAULT (spec/60_exceptions.md R140, spec/40_execution_loop.md R87). The state given is the one at the
START of the cycle: nothing of the cycle survives, so PC is the address of the faulting instruction's opcode
byte and the registers and memory are as they were. The cause and the value are latched, and the Executor
stops. Control goes nowhere: there is no handler, no vector and no saved-PC register. -/
def takeFault (s : State) (e : Exc) : State :=
  { s.stopCurrent with faultCause := e.cause, faultInfo := e.info }

/-- The end of a fetch cycle that began in `s`. A cycle that raised nothing ends with the final increment of PC
(spec/40_execution_loop.md R84); one that raised a fault takes it from the state it began in (R87). -/
def completeCycle (s : State) (r : Except Exc State) : Host.Outcome State Fault Refusal :=
  match r with
  | .ok t => .next (t.advancePc 1)
  | .error e => .next (takeFault s e)

/-- `start(pid)`, the Executor start (spec/70_reset_and_hazards.md R163). There is no return from a fault: this is the
only way on after a halt (spec/60_exceptions.md R141). Refused, with nothing changed, while a run is in
progress, when no record has the id, or when the load of the process ran out of memory
(spec/70_reset_and_hazards.md R172, spec/93_implementation_defined.md U14; log 12). -/
def start (s : State) (pid : Nat) : Host.Outcome State Fault Refusal :=
  if s.haltFlag = false then .refused .startWhileRunning
  else if !s.procs.any (fun p => p.id == pid) then .refused (.startUnknownProcess pid)
  else if s.abortedLoads.contains pid then .refused (.startAbortedLoad pid)
  else
    .next { s with
      pc := 0, r1 := 0, r2 := 0
      faultCause := .none, faultInfo := 0
      curPid := pid
      procs := setProcState s.procs pid .running
      haltFlag := false }

end Sys2Proof.Machine
end

