-- ==== Sys2Proof/Machine/Flags.lean ====
section
/-! DEFINITION. The results of the arithmetic instructions. THE MACHINE HAS NO FLAGS: no status flags, condition codes
or predicate registers, and ADD and SUB record no carry, borrow, zero or overflow (spec/10_state.md R14,
spec/42_arithmetic.md R110, R111). `HALT_FLAG` is a control bit; `State.stopCurrent` in Ops.lean sets it. -/

namespace Sys2Proof.Machine

/-- `(a + b) mod 65536`, with no trap and no flag (spec/42_arithmetic.md R110, R112). -/
def addResult (a b : Word) : Word := a + b

/-- `(a - b) mod 65536`, with no trap and no flag (spec/42_arithmetic.md R111, R112). -/
def subResult (a b : Word) : Word := a - b

/-- BEQ's comparison: equality of the two full 16-bit values, the only comparison of the machine
(spec/43_control.md R120, spec/42_arithmetic.md R112). -/
def equalWords (a b : Word) : Bool := a == b

end Sys2Proof.Machine
end

