-- ==== Sys2Proof/Machine/Operands.lean ====
section
/-! DEFINITION. The two operand forms: a register operand byte and an absolute address byte (spec/30_encoding.md R65 to R67).
There is no other addressing mode and no other immediate (spec/41_load_store.md, preamble; R67). -/

namespace Sys2Proof.Machine

/-- The register that an operand byte names, or `InvalidRegister` (spec/10_state.md R11, spec/30_encoding.md R65,
R66). No bit of the byte is ignored. -/
def operandReg (b : Byte) : Except Exc Reg :=
  if b = 0#8 then .ok .pc
  else if b = 1#8 then .ok .r1
  else if b = 2#8 then .ok .r2
  else .error (.invalidRegister b)

/-- The operand byte that names a register (spec/10_state.md R11). -/
def Reg.toByte : Reg → Byte
  | .pc => 0#8
  | .r1 => 1#8
  | .r2 => 2#8

/-- The logical address that an `addr` byte names: absolute, zero-extended, unscaled (spec/30_encoding.md R67). -/
def operandAddr (a : Byte) : Word := zext16 a

/-- The state in which an instruction with `n` operand bytes executes, given the state at the start of its cycle:
each operand fetch has added 1 to PC, so PC is the address of the last operand byte
(spec/40_execution_loop.md R82, R85). -/
def State.afterOperands (s : State) (n : Nat) : State := s.advancePc n

end Sys2Proof.Machine
end

