-- ==== Sys2Proof/Machine/Arithmetic.lean ====
section
/-! DEFINITION. ADD and SUB (spec/42_arithmetic.md). A meaning is given the state at the START of the cycle, with the
instruction's bytes already fetched (log 15). -/

namespace Sys2Proof.Machine

/-- The common form of ADD and SUB: both register checks in encoding order, both sources read before the write, the
result to the first register (spec/42_arithmetic.md R110, R111). -/
def registerOperation (f : Word → Word → Word) (reg1 reg2 : Byte) (s : State) : Except Exc State := do
  let d ← operandReg reg1
  let r ← operandReg reg2
  let u := s.afterOperands 2
  .ok (u.writeReg d (f (u.readReg d) (u.readReg r)))

/-- ADD `reg1`, `reg2` (spec/42_arithmetic.md R110). -/
def execAdd (reg1 reg2 : Byte) (s : State) : Host.Outcome State Fault Refusal :=
  completeCycle s (registerOperation addResult reg1 reg2 s)

/-- SUB `reg1`, `reg2` (spec/42_arithmetic.md R111). -/
def execSub (reg1 reg2 : Byte) (s : State) : Host.Outcome State Fault Refusal :=
  completeCycle s (registerOperation subResult reg1 reg2 s)

end Sys2Proof.Machine
end

