-- ==== Sys2Proof/Machine/Control.lean ====
section
/-! DEFINITION. BEQ and HALT (spec/43_control.md). A meaning is given the state at the START of the cycle, with the
instruction's bytes already fetched (log 15). -/

namespace Sys2Proof.Machine

/-- BEQ `reg1`, `reg2`, `addr` (spec/43_control.md R120): PC takes the `addr` byte, untranslated, when the two
registers are equal; the final increment follows either way, so a taken branch continues at `addr + 1`
(R122, spec/40_execution_loop.md R84). -/
def execBeq (reg1 reg2 addr : Byte) (s : State) : Host.Outcome State Fault Refusal :=
  completeCycle s (do
    let a ← operandReg reg1
    let b ← operandReg reg2
    let u := s.afterOperands 3
    if equalWords (u.readReg a) (u.readReg b) then .ok (u.writeReg .pc (operandAddr addr))
    else .ok u)

/-- HALT (spec/43_control.md R121): the halt flag is set and the current process is halted; the final increment
applies (spec/40_execution_loop.md R84). -/
def execHalt (s : State) : Host.Outcome State Fault Refusal :=
  completeCycle s (.ok s.stopCurrent)

end Sys2Proof.Machine
end

