-- ==== Sys2Proof/Machine/LoadStore.lean ====
section
/-! DEFINITION. LOAD_WORD and STORE_WORD (spec/41_load_store.md). A meaning is a whole fetch cycle after the fetches:
it is given the state at the START of the cycle, with the instruction's bytes already fetched (log 15). -/

namespace Sys2Proof.Machine

/-- LOAD_WORD `reg`, `addr` (spec/41_load_store.md R100): the register check, then one translation and the bytes at
`pa` and `pa + 1`, then the register write; register 0 is a jump through memory (spec/40_execution_loop.md
R90). -/
def execLoadWord (reg addr : Byte) (s : State) : Host.Outcome State Fault Refusal :=
  completeCycle s (do
    let r ← operandReg reg
    let u := s.afterOperands 2
    let v ← memReadWord u (operandAddr addr)
    .ok (u.writeReg r v))

/-- STORE_WORD `reg`, `addr` (spec/41_load_store.md R101): the register check, then the store of the register's value
of that moment; for register 0 that is the address of the instruction's own `addr` byte
(spec/40_execution_loop.md R85). -/
def execStoreWord (reg addr : Byte) (s : State) : Host.Outcome State Fault Refusal :=
  completeCycle s (do
    let r ← operandReg reg
    let u := s.afterOperands 2
    memWriteWord u (operandAddr addr) (u.readReg r))

end Sys2Proof.Machine
end

