-- ==== Sys2Proof/Syntax.lean ====
section
/-! DEFINITION. The instructions of the VM ISA: the six rows of spec/opcode_table.json (spec/30_encoding.md R63).
Operands are the bytes the instruction carries, in encoding order (R60, R61). -/

namespace Sys2Proof

/-- One constructor per row of the opcode table. A register operand is kept as the byte that was fetched: the
spec lets an instruction be decoded with a byte that names no register and has THE INSTRUCTION raise
`InvalidRegister` (spec/30_encoding.md R62, R66; spec/60_exceptions.md R133). -/
inductive Instr where
  /-- LOAD_WORD `reg`, `addr`: format RA, opcode 0x01 (spec/41_load_store.md R100). -/
  | loadWord (reg addr : Byte)
  /-- STORE_WORD `reg`, `addr`: format RA, opcode 0x02 (spec/41_load_store.md R101). -/
  | storeWord (reg addr : Byte)
  /-- ADD `reg1`, `reg2`: format RR, opcode 0x03 (spec/42_arithmetic.md R110). -/
  | add (reg1 reg2 : Byte)
  /-- SUB `reg1`, `reg2`: format RR, opcode 0x04 (spec/42_arithmetic.md R111). -/
  | sub (reg1 reg2 : Byte)
  /-- BEQ `reg1`, `reg2`, `addr`: format RRA, opcode 0x05 (spec/43_control.md R120). -/
  | beq (reg1 reg2 addr : Byte)
  /-- HALT: format Z, opcode 0xFF (spec/43_control.md R121). -/
  | halt
  deriving DecidableEq, Repr

end Sys2Proof
end

