-- ==== Sys2Proof/Machine/Dispatch.lean ====
section
/-! DEFINITION. One arm per instruction, each one call of its meaning (spec/40_execution_loop.md R83, R88). -/

namespace Sys2Proof.Machine

def exec (i : Instr) (s : State) : Host.Outcome State Fault Refusal :=
  match i with
  | .loadWord reg addr => Sys2Proof.Machine.execLoadWord reg addr s
  | .storeWord reg addr => Sys2Proof.Machine.execStoreWord reg addr s
  | .add reg1 reg2 => Sys2Proof.Machine.execAdd reg1 reg2 s
  | .sub reg1 reg2 => Sys2Proof.Machine.execSub reg1 reg2 s
  | .beq reg1 reg2 addr => Sys2Proof.Machine.execBeq reg1 reg2 addr s
  | .halt => Sys2Proof.Machine.execHalt s

end Sys2Proof.Machine
end

