-- ==== Sys2Proof/WellFormed.lean ====
section
/-! DEFINITION. Which instructions name only registers that exist (spec/10_state.md R11, spec/30_encoding.md R66). Every
value of an `addr` byte is legal (R68), so the register operands are all there is to check. -/

namespace Sys2Proof

/-- The byte is the index of a register: 0 is PC, 1 is R1, 2 is R2 (spec/10_state.md R11). -/
abbrev RegisterByte (b : Byte) : Prop := b.toNat ≤ 2

/-- Every register operand of the instruction names a register. -/
def Instr.wellFormed : Instr → Bool
  | .loadWord reg _ => decide (RegisterByte reg)
  | .storeWord reg _ => decide (RegisterByte reg)
  | .add reg1 reg2 => decide (RegisterByte reg1) && decide (RegisterByte reg2)
  | .sub reg1 reg2 => decide (RegisterByte reg1) && decide (RegisterByte reg2)
  | .beq reg1 reg2 _ => decide (RegisterByte reg1) && decide (RegisterByte reg2)
  | .halt => true

end Sys2Proof
end

