-- ==== Sys2Proof/Decode.lean ====
section
/-! DEFINITION. The decoder and, after it, the encoder (spec/30_encoding.md R60 to R68). The decoder is written once,
over a supply of the instruction's bytes: the machine supplies them from memory through translation, one fetch
each (spec/40_execution_loop.md R88), and `decode` supplies them from a list. -/

namespace Sys2Proof

/-- The six legal opcodes (spec/30_encoding.md R63). -/
inductive Opcode where
  | loadWord
  | storeWord
  | add
  | sub
  | beq
  | halt
  deriving DecidableEq, Repr

/-- The opcode byte, compared as a whole byte (spec/30_encoding.md R63). -/
def Opcode.toByte : Opcode → Byte
  | .loadWord => 0x01#8
  | .storeWord => 0x02#8
  | .add => 0x03#8
  | .sub => 0x04#8
  | .beq => 0x05#8
  | .halt => 0xFF#8

/-- The opcode a byte selects; the other 250 byte values are illegal (spec/30_encoding.md R63, R64). -/
def Opcode.ofByte? (b : Byte) : Option Opcode :=
  if b = 0x01#8 then some .loadWord
  else if b = 0x02#8 then some .storeWord
  else if b = 0x03#8 then some .add
  else if b = 0x04#8 then some .sub
  else if b = 0x05#8 then some .beq
  else if b = 0xFF#8 then some .halt
  else none

/-- How many operand bytes follow the opcode (spec/30_encoding.md R60, R62). -/
def Opcode.operandCount : Opcode → Nat
  | .loadWord => 2
  | .storeWord => 2
  | .add => 2
  | .sub => 2
  | .beq => 3
  | .halt => 0

/-- The opcode of an instruction. -/
def Instr.opcode : Instr → Opcode
  | .loadWord _ _ => .loadWord
  | .storeWord _ _ => .storeWord
  | .add _ _ => .add
  | .sub _ _ => .sub
  | .beq _ _ _ => .beq
  | .halt => .halt

/-- The length of an instruction in bytes: 1, 3 or 4 (spec/30_encoding.md R60). -/
def Instr.length (i : Instr) : Nat := i.opcode.operandCount + 1

/-- The decoder, over a supply of bytes: `byteAt k` yields byte `k` of the instruction or fails. The opcode byte
is read first; an illegal one is rejected before any operand byte is read (spec/30_encoding.md R64); then the
operand bytes are read in encoding order, all of them whatever their values (R62, spec/40_execution_loop.md
R83). -/
def decodeWith {ε : Type} (invalidOpcode : Byte → ε) (byteAt : Nat → Except ε Byte) : Except ε Instr := do
  let op ← byteAt 0
  match Opcode.ofByte? op with
  | none => .error (invalidOpcode op)
  | some .loadWord => do
    let reg ← byteAt 1
    let addr ← byteAt 2
    .ok (.loadWord reg addr)
  | some .storeWord => do
    let reg ← byteAt 1
    let addr ← byteAt 2
    .ok (.storeWord reg addr)
  | some .add => do
    let reg1 ← byteAt 1
    let reg2 ← byteAt 2
    .ok (.add reg1 reg2)
  | some .sub => do
    let reg1 ← byteAt 1
    let reg2 ← byteAt 2
    .ok (.sub reg1 reg2)
  | some .beq => do
    let reg1 ← byteAt 1
    let reg2 ← byteAt 2
    let addr ← byteAt 3
    .ok (.beq reg1 reg2 addr)
  | some .halt => .ok .halt

/-- Why a list of bytes is no instruction. -/
inductive DecodeError where
  /-- The first byte is none of the six opcodes (spec/30_encoding.md R64). -/
  | invalidOpcode (op : Byte)
  /-- The list ends before the instruction does. (In the machine a byte that cannot be fetched raises the fetch's own fault.) -/
  | truncated
  deriving DecidableEq, Repr

/-- Byte `k` of a list, for the decoder. -/
def listByte (bytes : List Byte) (k : Nat) : Except DecodeError Byte :=
  match bytes[k]? with
  | some b => .ok b
  | none => .error .truncated

/-- The instruction at the front of a list of bytes, with the rest of the list. Total, and it rejects by name. -/
def decode (bytes : List Byte) : Except DecodeError (Instr × List Byte) :=
  match decodeWith .invalidOpcode (listByte bytes) with
  | .ok i => .ok (i, bytes.drop i.length)
  | .error e => .error e

/-- The four bytes (the longest instruction) of a number in the opcode table's numbering: bits 7..0 are the opcode
byte, bits 15..8 the byte after it, and so on; bits from `nbits` up are zero. -/
def tableWordBytes (nbits w : Nat) : List Byte :=
  let v := w % 2 ^ nbits
  [BitVec.ofNat 8 v, BitVec.ofNat 8 (v / 256), BitVec.ofNat 8 (v / 65536), BitVec.ofNat 8 (v / 16777216)]

/-- The instruction the decoder reads from an instruction given as a number in the opcode table's numbering. -/
def decodeTableWord (nbits w : Nat) : Option Instr :=
  match decode (tableWordBytes nbits w) with
  | .ok (i, _) => some i
  | .error _ => none

/-- The bytes of an instruction: the opcode byte, then each operand byte in the order of the opcode table's
columns (spec/30_encoding.md R60). -/
def encode : Instr → List Byte
  | .loadWord reg addr => [0x01#8, reg, addr]
  | .storeWord reg addr => [0x02#8, reg, addr]
  | .add reg1 reg2 => [0x03#8, reg1, reg2]
  | .sub reg1 reg2 => [0x04#8, reg1, reg2]
  | .beq reg1 reg2 addr => [0x05#8, reg1, reg2, addr]
  | .halt => [0xFF#8]

/-- A list of bytes as one number, the first byte least significant (the opcode table's numbering). -/
def bytesToNat : List Byte → Nat
  | [] => 0
  | b :: bs => b.toNat + 256 * bytesToNat bs

end Sys2Proof
end

