-- ==== Sys2Proof/Machine/Fetch.lean ====
section
/-! DEFINITION. Fetching an instruction's bytes through translation, and placing an instruction where the next cycle
fetches it. -/

namespace Sys2Proof.Machine

/-- Byte `k` of the instruction at PC: PC incremented `k` times modulo 65536, then one translated fetch
(spec/40_execution_loop.md R81, R82). -/
def fetchByte (s : State) (k : Nat) : Except Exc Byte :=
  memReadByte s (s.afterOperands k).pc

/-- The fetch and decode part of a cycle (spec/40_execution_loop.md R81 to R83, R88): the opcode byte at PC, then
`InvalidOpcode` or one fetch per operand byte, each fetch raising its own faults in that order
(spec/60_exceptions.md R139). -/
def fetchInstr (s : State) : Except Exc Instr :=
  decodeWith Exc.invalidOpcode (fetchByte s)

/-- The machine with a program's first bytes placed so that the next cycle fetches them: a program of this machine is
loaded and started by the host, so this stands for the flat set-up and the Executor start
(spec/70_reset_and_hazards.md R165, R163; log 6), reduced to what the fetch needs: the bytes in the cells from
0 up, a fresh process with the one entry of the flat configuration, that process current and running, PC at
0, and the halt flag clear. -/
def State.withProgram (s : State) (bytes : List Byte) : State :=
  { s with
    pc := 0
    haltFlag := false
    curPid := s.nextPid
    procs := s.procs ++ [{ id := s.nextPid, state := .running }]
    tt := s.tt.filter (fun e => e.pid != s.nextPid)
      ++ [{ pid := s.nextPid, logicalBase := 0, length := max s.physSize bytes.length, physicalBase := 0 }]
    nextPid := s.nextPid + 1
    mem := s.mem.writeBytes 0 bytes
    physSize := max s.physSize bytes.length }

end Sys2Proof.Machine
end

