-- ==== Sys2Proof/Machine/Step.lean ====
section
/-! DEFINITION. The step function: one fetch cycle (spec/40_execution_loop.md R80, R88). -/

namespace Sys2Proof.Machine

/-- One step. While `HALT_FLAG` is set no cycle begins and no state changes (spec/40_execution_loop.md R80), so the
step answers the same state (log 4). Otherwise it is one fetch cycle: fetch and decode, then the meaning of
the instruction, which ends with the final increment; a fault of the fetch is taken from the state the cycle
began in (R87). -/
def step (s : State) : Host.Outcome State Fault Refusal :=
  match s.haltFlag with
  | true => .next s
  | false =>
    match fetchInstr s with
    | .ok i => exec i s
    | .error e => .next (takeFault s e)

/-- `s` with the instruction whose bits are `w`, in the opcode table's numbering, loaded and started so that `step`
fetches and runs it next (log 6). -/
def State.withFetchWord (s : State) (nbits w : Nat) : State :=
  s.withProgram (tableWordBytes nbits w)

end Sys2Proof.Machine
end

