-- ==== Sys2Proof/Machine/Boot.lean ====
section
/-! DEFINITION. What the host does outside a run (spec/70_reset_and_hazards.md): the allocator, the image format and
the loader, the flat set-up, launching a run, and observation. None of it is part of `step` (log 6), and the host
uses it only while `HALT_FLAG` is set (R161; log 11). -/

namespace Sys2Proof.Machine

/-! ## The allocator -/

/-- Cells `[b, b + len)` are all free. -/
def runFree (occ : List Nat) (b len : Nat) : Bool :=
  (List.range len).all (fun i => !occ.contains (b + i))

/-- The lowest of the candidates `b, b + 1, …` (at most `fuel` of them) with `len` free cells from it. -/
def firstFit (occ : List Nat) (len : Nat) : (fuel b : Nat) → Option Nat
  | 0, _ => none
  | fuel + 1, b => if runFree occ b len then some b else firstFit occ len fuel (b + 1)

/-- `OCC[a] <- occupied`, keeping the addresses rising. -/
def occMark : List Nat → Nat → List Nat
  | [], a => [a]
  | c :: cs, a => if a < c then a :: c :: cs else if a = c then c :: cs else c :: occMark cs a

/-- `OCC[b + i] <- occupied` for every `i` in `[0, n)`. -/
def occMarkRange : List Nat → (b n : Nat) → List Nat
  | occ, _, 0 => occ
  | occ, b, n + 1 => occMarkRange (occMark occ b) (b + 1) n

/-- `allocate(length)` (spec/70_reset_and_hazards.md R167): the whole array is searched for the first free run from
address 0 up, which is marked; `none` is `OutOfMemory` (spec/60_exceptions.md R135), and nothing changes. `M` does
not change. For length 0 the answer is 0 and nothing is marked. -/
def allocate (s : State) (len : Nat) : Option (Nat × State) :=
  if len ≤ s.physSize then
    match firstFit s.occ len (s.physSize - len + 1) 0 with
    | some b => some (b, { s with occ := occMarkRange s.occ b len })
    | none => none
  else none

/-! ## The image format -/

/-- A segment header of an image (spec/70_reset_and_hazards.md R169). -/
structure SegmentHeader where
  /-- `type`: one bit to which the spec gives no meaning and which nothing uses (spec/20_memory.md R44). -/
  type : BitVec 1
  /-- `target_logical_addr`, 0 to 127. -/
  target : BitVec 7
  /-- `length`, 0 to 255. -/
  length : Byte
  /-- `payload_offset_index`, 0 to 255. -/
  offset : Byte
  deriving DecidableEq, Repr

/-- `segment_count`: byte 0 of the image. -/
def segmentCount (image : List Byte) : Nat := (image.getD 0 0).toNat

/-- Header `k` of an image: bytes `1 + 3k`, `2 + 3k` and `3 + 3k` (spec/70_reset_and_hazards.md R169). -/
def headerAt (image : List Byte) (k : Nat) : SegmentHeader where
  type := (image.getD (1 + 3 * k) 0).extractLsb' 7 1
  target := (image.getD (1 + 3 * k) 0).extractLsb' 0 7
  length := image.getD (2 + 3 * k) 0
  offset := image.getD (3 + 3 * k) 0

/-- The headers of an image, in order. -/
def imageHeaders (image : List Byte) : List SegmentHeader :=
  (List.range (segmentCount image)).map (headerAt image)

/-- The absolute index in the image at which a segment's payload starts (spec/70_reset_and_hazards.md R169). -/
def payloadStart (image : List Byte) (h : SegmentHeader) : Nat :=
  1 + 3 * segmentCount image + h.offset.toNat

/-- A segment's payload: `length` bytes from `payloadStart` (spec/70_reset_and_hazards.md R169). -/
def payload (image : List Byte) (h : SegmentHeader) : List Byte :=
  (image.drop (payloadStart image h)).take h.length.toNat

/-- The image is not malformed: none of the three conditions of spec/70_reset_and_hazards.md R171 holds. -/
def imageValid (image : List Byte) : Bool :=
  decide (1 ≤ image.length)
    && decide (1 + 3 * segmentCount image ≤ image.length)
    && (imageHeaders image).all (fun h => decide (payloadStart image h + h.length.toNat ≤ image.length))

/-! ## The loader -/

/-- What `load` answers (spec/70_reset_and_hazards.md R170 to R172). -/
inductive LoadOutcome where
  /-- The image is loaded as the process `pid`. -/
  | loaded (pid : Nat) (s : State)
  /-- `OutOfMemory` (spec/60_exceptions.md R135): what was done before the failing segment stays (R172). -/
  | outOfMemory (s : State)
  /-- `MalformedImage` (spec/60_exceptions.md R136): nothing was done. -/
  | malformedImage
  deriving DecidableEq, Repr

/-- One segment of `load` (spec/70_reset_and_hazards.md R170): allocate, copy the payload by physical address, register
the entry; `none` when the allocation fails. `type` is not looked at. -/
def loadSegment (image : List Byte) (pid : Nat) (s : State) (h : SegmentHeader) : Option State :=
  match allocate s h.length.toNat with
  | none => none
  | some (pb, t) =>
    some (ttRegister { t with mem := t.mem.writeBytes pb (payload image h) }
      { pid := pid, logicalBase := h.target.toNat, length := h.length.toNat, physicalBase := pb })

/-- The end of a load whose allocation failed: nothing is undone, and the id is never started
(spec/70_reset_and_hazards.md R172; log 12). -/
def abortLoad (s : State) (pid : Nat) : State := { s with abortedLoads := s.abortedLoads ++ [pid] }

/-- The segments of an image in header order, up to the first whose allocation fails. -/
def loadSegments (image : List Byte) (pid : Nat) : List SegmentHeader → State → LoadOutcome
  | [], s => .loaded pid s
  | h :: hs, s =>
    match loadSegment image pid s h with
    | some t => loadSegments image pid hs t
    | none => .outOfMemory (abortLoad s pid)

/-- A new process record with the next id, `running` from its creation (spec/10_state.md R16, R20). -/
def createProcess (s : State) : State :=
  { s with nextPid := s.nextPid + 1, procs := s.procs ++ [{ id := s.nextPid, state := .running }] }

/-- `load(bytes)` (spec/70_reset_and_hazards.md R170): validated first, without side effect; then one new process and
its segments. -/
def load (s : State) (image : List Byte) : LoadOutcome :=
  if imageValid image then loadSegments image s.nextPid (imageHeaders image) (createProcess s)
  else .malformedImage

/-! ## The flat configuration and launching a run -/

/-- The flat set-up from a preloaded physical memory (spec/70_reset_and_hazards.md R165): power-on with as many cells
as there are bytes, every cell written and occupied, one process with the identity entry. -/
def State.flat (bytes : List Byte) : State :=
  let s := createProcess (State.powerOn bytes.length)
  ttRegister { s with mem := s.mem.writeBytes 0 bytes, occ := List.range bytes.length }
    { pid := 1, logicalBase := 0, length := bytes.length, physicalBase := 0 }

/-- `run(process_image_bytes)` up to its first cycle (spec/70_reset_and_hazards.md R162): a load error ends it before
the start. The cycles are the steps that follow. -/
def launchImage (s : State) (image : List Byte) : Except LoadOutcome (Host.Outcome State Fault Refusal) :=
  match load s image with
  | .loaded pid t => .ok (start t pid)
  | .outOfMemory t => .error (.outOfMemory t)
  | .malformedImage => .error .malformedImage

/-- `run(preloaded_physical_memory)` up to its first cycle (spec/70_reset_and_hazards.md R162). -/
def launchFlat (bytes : List Byte) : Host.Outcome State Fault Refusal := start (State.flat bytes) 1

/-! ## Observation -/

/-- What the host may read after a halt, besides the cells of memory (spec/70_reset_and_hazards.md R166). -/
structure Observation where
  pc : Word
  r1 : Word
  r2 : Word
  faultCause : FaultCause
  faultInfo : Nat
  procs : List Proc
  deriving DecidableEq, Repr

/-- The observation port (spec/70_reset_and_hazards.md R166): nothing while a run is in progress. -/
def observe (s : State) : Option Observation :=
  if s.haltFlag then
    some { pc := s.pc, r1 := s.r1, r2 := s.r2, faultCause := s.faultCause, faultInfo := s.faultInfo, procs := s.procs }
  else none

/-- A physical cell at the observation port (spec/70_reset_and_hazards.md R166). -/
def observeCell (s : State) (pa : Nat) : Option Byte :=
  if s.haltFlag then
    match physRead s pa with
    | .ok b => some b
    | .error _ => none
  else none

/-- A cell the host finds by applying `Translate(pid, la)` itself (spec/70_reset_and_hazards.md R166). -/
def observeLogical (s : State) (pid : Nat) (la : Word) : Option Byte :=
  match translateAddr s.tt pid la with
  | .ok pa => observeCell s pa
  | .error _ => none

end Sys2Proof.Machine
end

