-- ==== Sys2Proof/Safety.lean ====
section
/-! DEFINITION. How a run ends (spec/70_reset_and_hazards.md R181), the invariant of the machine, and the states that
its life reaches (R161). -/

namespace Sys2Proof.Machine

/-! ## The end of a run -/

/-- A run is in progress: the next step is a fetch cycle (spec/40_execution_loop.md R80). -/
abbrev State.Running (s : State) : Prop := s.haltFlag = false

/-- The run has ended cleanly (spec/70_reset_and_hazards.md R181). -/
abbrev State.EndedCleanly (s : State) : Prop := s.haltFlag = true ∧ s.faultCause = .none

/-- The run has ended by fault (spec/70_reset_and_hazards.md R181). -/
abbrev State.EndedByFault (s : State) : Prop := s.haltFlag = true ∧ s.faultCause ≠ .none

/-- A SAFE RUN: `k` steps from `s` lead to `t`, and the run has ended there without a fault. A claim about a
program's result is about such runs (spec/60_exceptions.md R140). -/
def EndsCleanlyIn (k : Nat) (s t : State) : Prop :=
  Host.Core.run Sys2Proof.core k s = .next t ∧ t.EndedCleanly

/-! ## The terms of claims about a cycle -/

/-- Fault entry, written out from spec/60_exceptions.md R140 for claims: nothing of the cycle survives but the latch,
the halt flag and the current process's record. -/
def faultEntry (s : State) (cause : FaultCause) (info : Nat) : State :=
  { s with
    haltFlag := true
    faultCause := cause
    faultInfo := info
    procs := s.procs.map (fun p => if p.id = s.curPid then { p with state := .halted } else p) }

/-- The value a register operand shows as a source to an instruction with `n` operand bytes, from the state at the
start of its cycle (spec/40_execution_loop.md R85). -/
def State.sourceValue (s : State) (n : Nat) : Reg → Word
  | .pc => s.pc + BitVec.ofNat 16 n
  | .r1 => s.r1
  | .r2 => s.r2

/-- The state after a three-byte instruction that writes `v` to a register (spec/40_execution_loop.md R85, last
column, and R90): a value written to PC is followed by the final increment. -/
def State.afterResult (s : State) (v : Word) : Reg → State
  | .pc => { s with pc := v + 1 }
  | .r1 => { s with pc := s.pc + 3, r1 := v }
  | .r2 => { s with pc := s.pc + 3, r2 := v }

/-- The register operand bytes of an instruction, in encoding order (spec/30_encoding.md R60). -/
def registerOperands : Instr → List Byte
  | .loadWord reg _ => [reg]
  | .storeWord reg _ => [reg]
  | .add reg1 reg2 => [reg1, reg2]
  | .sub reg1 reg2 => [reg1, reg2]
  | .beq reg1 reg2 _ => [reg1, reg2]
  | .halt => []

/-- What no program reaches is as it was: the current process, the table, the next id, the occupancy markers, `N` and
the aborted loads (the model's own field: log 12). -/
abbrev SameSurroundings (s t : State) : Prop :=
  t.curPid = s.curPid ∧ t.tt = s.tt ∧ t.nextPid = s.nextPid ∧ t.occ = s.occ ∧ t.physSize = s.physSize ∧
    t.abortedLoads = s.abortedLoads

/-- The halt flag, the fault latch and the process records are as they were. -/
abbrev SameControl (s t : State) : Prop :=
  t.haltFlag = s.haltFlag ∧ t.faultCause = s.faultCause ∧ t.faultInfo = s.faultInfo ∧ t.procs = s.procs

/-- The cycle that began in `s` has taken a fault and `t` is the state it left (spec/60_exceptions.md R140). -/
abbrev FaultTaken (s t : State) : Prop :=
  t.faultCause ≠ .none ∧ t = faultEntry s t.faultCause t.faultInfo

/-- The cells a program of the current process can reach: those some logical address of it translates to, and the
one after each, as the high byte of a word (spec/20_memory.md R56, R38, R39). -/
def State.Reaches (s : State) (a : Nat) : Prop :=
  ∃ la pa, translateAddr s.tt s.curPid la = .ok pa ∧ (a = pa ∨ a = pa + 1)

/-! ## The terms of claims about a load -/

/-- The load of `image` that began in `s` has done its segments `0` to `k - 1` in `t`, and nothing of the others
(spec/70_reset_and_hazards.md R170, R172): their entries stand in the table in header order; each has a run of cells
that were free, are occupied and hold its payload; no other cell has been occupied; and the cells that were occupied,
or still are free, hold what they held. -/
def SegmentsLoaded (s t : State) (image : List Byte) (k : Nat) : Prop :=
  ∃ entries : List TTEntry, t.tt = s.tt ++ entries ∧
    entries.map (fun e => (e.pid, e.logicalBase, e.length)) =
      (List.range k).map (fun j =>
        (s.nextPid, (image.getD (1 + 3 * j) 0).toNat % 128, (image.getD (2 + 3 * j) 0).toNat)) ∧
    (∀ j e, entries[j]? = some e → e.physicalBase + e.length ≤ s.physSize ∧
      ∀ i, i < e.length → e.physicalBase + i ∉ s.occ ∧ e.physicalBase + i ∈ t.occ ∧
        t.mem.read (e.physicalBase + i) =
          image.getD (1 + 3 * (image.getD 0 0).toNat + (image.getD (3 + 3 * j) 0).toNat + i) 0) ∧
    (∀ a, a ∈ t.occ ↔ a ∈ s.occ ∨ ∃ e ∈ entries, e.physicalBase ≤ a ∧ a < e.physicalBase + e.length) ∧
    ∀ a, a ∈ s.occ ∨ a ∉ t.occ → t.mem.read a = s.mem.read a

/-! ## The invariant -/

/-- The field ranges of a table entry (spec/20_memory.md R41, spec/00_scope.md R6). -/
abbrev TTEntry.InRange (e : TTEntry) : Prop :=
  1 ≤ e.pid ∧ e.logicalBase < 65536 ∧ e.length < 65536 ∧ e.physicalBase < 65536

/-- The flat entry of the largest machine, `n = 65536`: the one entry whose length is out of that range
(spec/00_scope.md R4, spec/70_reset_and_hazards.md R165; log 14). -/
abbrev TTEntry.LargestFlat (e : TTEntry) (n : Nat) : Prop :=
  n = 65536 ∧ 1 ≤ e.pid ∧ e.logicalBase = 0 ∧ e.length = n ∧ e.physicalBase = 0

/-- The fault latch holds a value that its cause can record (spec/60_exceptions.md R131 to R134, spec/10_state.md
R17). -/
def State.LatchOk (s : State) : Prop :=
  match s.faultCause with
  | .none => s.faultInfo = 0
  | .translationFault => s.faultInfo < 65536
  | .invalidOpcode => s.faultInfo < 256 ∧ Opcode.ofByte? (BitVec.ofNat 8 s.faultInfo) = none
  | .invalidRegister => 3 ≤ s.faultInfo ∧ s.faultInfo < 256
  | .physicalRangeFault => s.physSize ≤ s.faultInfo ∧ s.faultInfo < 131072

/-- The invariant of the machine: what every state has that the machine's life reaches. -/
structure State.Inv (s : State) : Prop where
  /-- `N` is 1 to 65536 (spec/00_scope.md R5). -/
  sizeBounds : 1 ≤ s.physSize ∧ s.physSize ≤ 65536
  /-- Memory keeps its canonical form. -/
  memCanonical : s.mem.wf
  /-- Only physical cells that exist are written (spec/20_memory.md R30, R32). -/
  memInside : ∀ c ∈ s.mem, c.1 < s.physSize
  /-- The occupied addresses are rising, so none is listed twice. -/
  occCanonical : s.occ.Pairwise (· < ·)
  /-- Only cells that exist are occupied (spec/10_state.md R21). -/
  occInside : ∀ a ∈ s.occ, a < s.physSize
  /-- The fields of every table entry are in range (spec/20_memory.md R41), but for the flat entry at `N = 65536`. -/
  tableInRange : ∀ e ∈ s.tt, e.InRange ∨ e.LargestFlat s.physSize
  /-- Process ids are unique and strictly increasing (spec/10_state.md R16, R20). -/
  idsIncreasing : (s.procs.map Proc.id).Pairwise (· < ·)
  /-- Process ids are positive and below the next one (spec/10_state.md R16, R20). -/
  idsIssued : ∀ p ∈ s.procs, 1 ≤ p.id ∧ p.id < s.nextPid
  /-- The next id is positive (spec/10_state.md R20). -/
  nextPositive : 1 ≤ s.nextPid
  /-- The latch holds a value of its cause. -/
  latchOk : s.LatchOk
  /-- A latched fault has set the halt flag, and only a start clears either (spec/10_state.md R15, R17). -/
  faultHalts : s.faultCause ≠ .none → s.haltFlag = true
  /-- While a run is in progress the current process has a record and it is `running` (spec/10_state.md R16,
  R18; spec/70_reset_and_hazards.md R163). -/
  runningCurrent : s.haltFlag = false → { id := s.curPid, state := ProcState.running } ∈ s.procs
  /-- A process whose load ran out of memory has its record (spec/70_reset_and_hazards.md R172). -/
  abortedRecorded : ∀ pid ∈ s.abortedLoads, ∃ p ∈ s.procs, p.id = pid
  /-- A process whose load ran out of memory never runs (spec/70_reset_and_hazards.md R172; log 12). -/
  abortedIdle : s.haltFlag = false → s.curPid ∉ s.abortedLoads

/-! ## The life of the machine -/

/-- The states that the life of the machine reaches (spec/70_reset_and_hazards.md R161): power-on with any `N` or the
flat set-up; then loads, table registrations and starts by the host while no run is in progress; and steps. -/
inductive Reachable : State → Prop
  /-- Power-on (R160). -/
  | powerOn (n : Nat) (lower : 1 ≤ n) (upper : n ≤ 65536) : Reachable (State.powerOn n)
  /-- The flat set-up (R165). -/
  | flat (bytes : List Byte) (lower : 1 ≤ bytes.length) (upper : bytes.length ≤ 65536) : Reachable (State.flat bytes)
  /-- A load that succeeds (R170). -/
  | load (s t : State) (image : List Byte) (pid : Nat) (before : Reachable s) (idle : s.haltFlag = true)
      (done : load s image = .loaded pid t) : Reachable t
  /-- A load that runs out of memory (R172). -/
  | loadOutOfMemory (s t : State) (image : List Byte) (before : Reachable s) (idle : s.haltFlag = true)
      (failed : load s image = .outOfMemory t) : Reachable t
  /-- A table registration by the host (spec/20_memory.md R41). -/
  | register (s : State) (e : TTEntry) (before : Reachable s) (idle : s.haltFlag = true) (range : e.InRange) :
      Reachable (ttRegister s e)
  /-- An Executor start that is accepted (R163). -/
  | start (s t : State) (pid : Nat) (before : Reachable s) (accepted : start s pid = .next t) : Reachable t
  /-- A step (spec/40_execution_loop.md R80). -/
  | step (s t : State) (before : Reachable s) (stepped : step s = .next t) : Reachable t

end Sys2Proof.Machine
end

