-- ==== Sys2Proof/Certificates/Slice0/Obligations.lean ====
section
/-! DEFINITION. The statements for the provers. Each docstring names the rule of spec/ it comes from. -/

open Sys2Proof Sys2Proof.Machine

/-! ## Encoding -/

/-- Words written out from the encodings of spec/30_encoding.md R60 and R63, as bytes and in the opcode table's
numbering, decode to the instructions they stand for. -/
def Obligations.SpecWordsDecode : Prop :=
  decode [0x01, 0x01, 0x10] = .ok (.loadWord 1 0x10, []) ∧
  decode [0x02, 0x01, 0x0E, 0xFF] = .ok (.storeWord 1 0x0E, [0xFF]) ∧
  decode [0x03, 0x01, 0x02] = .ok (.add 1 2, []) ∧
  decode [0x04, 0x02, 0x00] = .ok (.sub 2 0, []) ∧
  decode [0x05, 0x01, 0x02, 0x0A] = .ok (.beq 1 2 0x0A, []) ∧
  decode [0xFF, 0x05] = .ok (.halt, [0x05]) ∧
  decode [0x00, 0x01, 0x02] = .error (.invalidOpcode 0x00) ∧
  decode [0x05, 0x01, 0x02] = .error .truncated ∧
  decodeTableWord 24 0x100201 = some (.loadWord 2 0x10) ∧
  decodeTableWord 32 0x0A020105 = some (.beq 1 2 0x0A)

/-- Decode and encode agree on every instruction, with every operand byte at every value, through the opcode table's
numbering of an instruction's bits (spec/30_encoding.md R60 to R68). -/
def Obligations.EncodedWordDecodesBack : Prop :=
  ∀ i : Instr, decodeTableWord (8 * i.length) (bytesToNat (encode i)) = some i

/-- Bytes that decode to an instruction are exactly its encoding, then the rest: no two encodings of one instruction,
and no bit ignored (spec/30_encoding.md R60, R61, R65). -/
def Obligations.DecodedBytesAreTheEncoding : Prop :=
  ∀ (bytes rest : List Byte) (i : Instr), decode bytes = .ok (i, rest) → bytes = encode i ++ rest

/-! ## The step -/

/-- Where the bytes at PC decode to an instruction, a running machine's step is the instruction's meaning at that very
state (spec/40_execution_loop.md R81 to R83, R88). Byte `k` is fetched at PC plus `k` modulo 65536, through its own
translation; only the instruction's own bytes are fetched. -/
def Obligations.StepRunsTheDecodedInstruction : Prop :=
  ∀ (s : State) (i : Instr) (bytes rest : List Byte),
    s.Running →
    decode bytes = .ok (i, rest) →
    (∀ k b, k < i.length → bytes[k]? = some b → memReadByte s (s.pc + BitVec.ofNat 16 k) = .ok b) →
    step s = exec i s

/-- Loading an instruction as a number in the opcode table's numbering and stepping runs it (the model's
`withFetchWord`: log 6, the model's choice). -/
def Obligations.FetchWordRunsTheInstruction : Prop :=
  ∀ (s : State) (nbits w : Nat) (i : Instr),
    decodeTableWord nbits w = some i → step (s.withFetchWord nbits w) = exec i (s.withFetchWord nbits w)

/-- While the halt flag is set no cycle begins and no state changes (spec/40_execution_loop.md R80; that the step then
answers the same state is log 4, the model's choice). -/
def Obligations.HaltedMachineKeepsItsState : Prop :=
  ∀ (s : State) (k : Nat), s.haltFlag = true → Host.Core.run Sys2Proof.core k s = .next s

/-- No step of the machine stops: a fault too is a next state (spec/40_execution_loop.md R87, spec/60_exceptions.md
R140; log 5, the model's reading). -/
def Obligations.EveryStepAnswersANextState : Prop :=
  ∀ s : State, ∃ t, step s = .next t

/-- A fault of the opcode fetch, in the order of spec/60_exceptions.md R139: an address that does not translate, then
a physical address outside memory (spec/40_execution_loop.md R81). -/
def Obligations.OpcodeFetchFaults : Prop :=
  FaultCause.translationFault.code = 1 ∧ FaultCause.physicalRangeFault.code = 4 ∧
  ∀ s : State, s.Running →
    (∀ e, translateAddr s.tt s.curPid s.pc = .error e →
      step s = .next (faultEntry s .translationFault s.pc.toNat)) ∧
    (∀ pa, translateAddr s.tt s.curPid s.pc = .ok pa → s.physSize ≤ pa →
      step s = .next (faultEntry s .physicalRangeFault pa))

/-- An illegal opcode byte raises `InvalidOpcode` whatever stands after it, with no state changed other than by fault
entry; a legal one never does (spec/30_encoding.md R64, spec/60_exceptions.md R132). -/
def Obligations.IllegalOpcodeRaisesInvalidOpcode : Prop :=
  FaultCause.invalidOpcode.code = 2 ∧
  ∀ (s : State) (op : Byte), s.Running → memReadByte s s.pc = .ok op →
    (op ∉ [0x01#8, 0x02#8, 0x03#8, 0x04#8, 0x05#8, 0xFF#8] →
      step s = .next (faultEntry s .invalidOpcode op.toNat)) ∧
    (op ∈ [0x01#8, 0x02#8, 0x03#8, 0x04#8, 0x05#8, 0xFF#8] → s.faultCause ≠ .invalidOpcode →
      ∀ t, step s = .next t → t.faultCause ≠ .invalidOpcode)

/-- A fault of an operand fetch: the operand bytes before it were fetched, PC stands at the operand byte for the
fault's value, and the state is that of the start of the cycle but for fault entry (spec/40_execution_loop.md R82,
R83, R87; spec/30_encoding.md R69). -/
def Obligations.OperandFetchFaults : Prop :=
  ∀ (s : State) (op : Byte) (o : Opcode) (k : Nat), s.Running →
    memReadByte s s.pc = .ok op → Opcode.ofByte? op = some o → 1 ≤ k → k ≤ o.operandCount →
    (∀ j, 1 ≤ j → j < k → ∃ b, memReadByte s (s.pc + BitVec.ofNat 16 j) = .ok b) →
    (∀ e, translateAddr s.tt s.curPid (s.pc + BitVec.ofNat 16 k) = .error e →
      step s = .next (faultEntry s .translationFault ((s.pc.toNat + k) % 65536))) ∧
    (∀ pa, translateAddr s.tt s.curPid (s.pc + BitVec.ofNat 16 k) = .ok pa → s.physSize ≤ pa →
      step s = .next (faultEntry s .physicalRangeFault pa))

/-- A register byte above 2 raises `InvalidRegister`, the first in encoding order being the one reported, and nothing
else raises it (spec/30_encoding.md R66, spec/60_exceptions.md R133). The bytes have all been fetched. -/
def Obligations.BadRegisterByteRaisesInvalidRegister : Prop :=
  FaultCause.invalidRegister.code = 3 ∧
  ∀ s : State, s.Running →
    (∀ i b, fetchInstr s = .ok i → (registerOperands i).find? (fun r => decide (2 < r.toNat)) = some b →
      step s = .next (faultEntry s .invalidRegister b.toNat)) ∧
    (∀ t, step s = .next t → s.faultCause ≠ .invalidRegister → t.faultCause = .invalidRegister →
      ∃ i b, fetchInstr s = .ok i ∧ (registerOperands i).find? (fun r => decide (2 < r.toNat)) = some b ∧
        t.faultInfo = b.toNat)

/-! ## The instruction rules, at the level of the step -/

/-- LOAD_WORD's whole rule from its opcode byte on: the operand fetches, the register check, the translation of
`addr`, the two range checks, and the loaded word `lo + 256 * hi` in the register (spec/41_load_store.md R100,
spec/20_memory.md R38). -/
def Obligations.LoadWordFollowsItsRule : Prop :=
  ∀ (s : State), s.Running →
    (∀ e, memReadByte s s.pc = .error e → step s = .next (faultEntry s e.cause e.info)) ∧
    (memReadByte s s.pc = .ok 0x01 →
    (∀ e, memReadByte s (s.pc + 1) = .error e → step s = .next (faultEntry s e.cause e.info)) ∧
    ∀ reg, memReadByte s (s.pc + 1) = .ok reg →
    (∀ e, memReadByte s (s.pc + 2) = .error e → step s = .next (faultEntry s e.cause e.info)) ∧
    ∀ addr, memReadByte s (s.pc + 2) = .ok addr →
    (2 < reg.toNat → step s = .next (faultEntry s .invalidRegister reg.toNat)) ∧
    ∀ r : Reg, reg = r.toByte →
    (∀ e, translateAddr s.tt s.curPid (BitVec.ofNat 16 addr.toNat) = .error e →
      step s = .next (faultEntry s .translationFault addr.toNat)) ∧
    ∀ pa, translateAddr s.tt s.curPid (BitVec.ofNat 16 addr.toNat) = .ok pa →
    (s.physSize ≤ pa → step s = .next (faultEntry s .physicalRangeFault pa)) ∧
    (pa < s.physSize → s.physSize ≤ pa + 1 → step s = .next (faultEntry s .physicalRangeFault (pa + 1))) ∧
    (pa + 1 < s.physSize → step s = .next (s.afterResult
      (BitVec.ofNat 16 ((s.mem.read pa).toNat + 256 * (s.mem.read (pa + 1)).toNat)) r)))

/-- STORE_WORD's whole rule from its opcode byte on: the operand fetches, the register check, the translation of
`addr`, the two range checks before the first write, then the low byte at `pa` and the high byte at `pa + 1`; register
0 stores PC + 2 (spec/41_load_store.md R101, spec/20_memory.md R39). -/
def Obligations.StoreWordFollowsItsRule : Prop :=
  ∀ (s : State), s.Running →
    (∀ e, memReadByte s s.pc = .error e → step s = .next (faultEntry s e.cause e.info)) ∧
    (memReadByte s s.pc = .ok 0x02 →
    (∀ e, memReadByte s (s.pc + 1) = .error e → step s = .next (faultEntry s e.cause e.info)) ∧
    ∀ reg, memReadByte s (s.pc + 1) = .ok reg →
    (∀ e, memReadByte s (s.pc + 2) = .error e → step s = .next (faultEntry s e.cause e.info)) ∧
    ∀ addr, memReadByte s (s.pc + 2) = .ok addr →
    (2 < reg.toNat → step s = .next (faultEntry s .invalidRegister reg.toNat)) ∧
    ∀ r : Reg, reg = r.toByte →
    (∀ e, translateAddr s.tt s.curPid (BitVec.ofNat 16 addr.toNat) = .error e →
      step s = .next (faultEntry s .translationFault addr.toNat)) ∧
    ∀ pa, translateAddr s.tt s.curPid (BitVec.ofNat 16 addr.toNat) = .ok pa →
    (s.physSize ≤ pa → step s = .next (faultEntry s .physicalRangeFault pa)) ∧
    (pa < s.physSize → s.physSize ≤ pa + 1 → step s = .next (faultEntry s .physicalRangeFault (pa + 1))) ∧
    (pa + 1 < s.physSize → ∃ t, step s = .next t ∧
      t = { s with pc := s.pc + 3, mem := t.mem } ∧
      ∀ a, t.mem.read a =
        if a = pa then BitVec.ofNat 8 (s.sourceValue 2 r).toNat
        else if a = pa + 1 then BitVec.ofNat 8 ((s.sourceValue 2 r).toNat / 256)
        else s.mem.read a))

/-- ADD's whole rule from its opcode byte on: the operand fetches, the two register checks in order, and the sum modulo
65536 in the first register, both sources read before the write (spec/42_arithmetic.md R110). -/
def Obligations.AddFollowsItsRule : Prop :=
  ∀ (s : State), s.Running →
    (∀ e, memReadByte s s.pc = .error e → step s = .next (faultEntry s e.cause e.info)) ∧
    (memReadByte s s.pc = .ok 0x03 →
    (∀ e, memReadByte s (s.pc + 1) = .error e → step s = .next (faultEntry s e.cause e.info)) ∧
    ∀ reg1, memReadByte s (s.pc + 1) = .ok reg1 →
    (∀ e, memReadByte s (s.pc + 2) = .error e → step s = .next (faultEntry s e.cause e.info)) ∧
    ∀ reg2, memReadByte s (s.pc + 2) = .ok reg2 →
    (2 < reg1.toNat → step s = .next (faultEntry s .invalidRegister reg1.toNat)) ∧
    (reg1.toNat ≤ 2 → 2 < reg2.toNat → step s = .next (faultEntry s .invalidRegister reg2.toNat)) ∧
    ∀ d r : Reg, reg1 = d.toByte → reg2 = r.toByte →
      step s = .next (s.afterResult
        (BitVec.ofNat 16 (((s.sourceValue 2 d).toNat + (s.sourceValue 2 r).toNat) % 65536)) d))

/-- SUB's whole rule from its opcode byte on: the operand fetches, the two register checks in order, and the difference
modulo 65536 in the first register, both sources read before the write (spec/42_arithmetic.md R111). -/
def Obligations.SubFollowsItsRule : Prop :=
  ∀ (s : State), s.Running →
    (∀ e, memReadByte s s.pc = .error e → step s = .next (faultEntry s e.cause e.info)) ∧
    (memReadByte s s.pc = .ok 0x04 →
    (∀ e, memReadByte s (s.pc + 1) = .error e → step s = .next (faultEntry s e.cause e.info)) ∧
    ∀ reg1, memReadByte s (s.pc + 1) = .ok reg1 →
    (∀ e, memReadByte s (s.pc + 2) = .error e → step s = .next (faultEntry s e.cause e.info)) ∧
    ∀ reg2, memReadByte s (s.pc + 2) = .ok reg2 →
    (2 < reg1.toNat → step s = .next (faultEntry s .invalidRegister reg1.toNat)) ∧
    (reg1.toNat ≤ 2 → 2 < reg2.toNat → step s = .next (faultEntry s .invalidRegister reg2.toNat)) ∧
    ∀ d r : Reg, reg1 = d.toByte → reg2 = r.toByte →
      step s = .next (s.afterResult
        (BitVec.ofInt 16 ((((s.sourceValue 2 d).toNat : Int) - ((s.sourceValue 2 r).toNat : Int)) % 65536)) d))

/-- BEQ's whole rule from its opcode byte on: all three operand fetches, the two register checks in order, then PC one
past the `addr` byte when the registers are equal and PC + 4 when not; an unmapped target is found by the next cycle's opcode fetch (spec/43_control.md R120, whose remark
that logical address 0 is reached only at a start or by a write to PC is not stated: PC also wraps, R86). -/
def Obligations.BeqFollowsItsRule : Prop :=
  ∀ (s : State), s.Running →
    (∀ e, memReadByte s s.pc = .error e → step s = .next (faultEntry s e.cause e.info)) ∧
    (memReadByte s s.pc = .ok 0x05 →
    (∀ e, memReadByte s (s.pc + 1) = .error e → step s = .next (faultEntry s e.cause e.info)) ∧
    ∀ reg1, memReadByte s (s.pc + 1) = .ok reg1 →
    (∀ e, memReadByte s (s.pc + 2) = .error e → step s = .next (faultEntry s e.cause e.info)) ∧
    ∀ reg2, memReadByte s (s.pc + 2) = .ok reg2 →
    (∀ e, memReadByte s (s.pc + 3) = .error e → step s = .next (faultEntry s e.cause e.info)) ∧
    ∀ addr, memReadByte s (s.pc + 3) = .ok addr →
    (2 < reg1.toNat → step s = .next (faultEntry s .invalidRegister reg1.toNat)) ∧
    (reg1.toNat ≤ 2 → 2 < reg2.toNat → step s = .next (faultEntry s .invalidRegister reg2.toNat)) ∧
    ∀ a b : Reg, reg1 = a.toByte → reg2 = b.toByte →
      (s.sourceValue 3 a = s.sourceValue 3 b → step s = .next { s with pc := BitVec.ofNat 16 (addr.toNat + 1) }) ∧
      (s.sourceValue 3 a ≠ s.sourceValue 3 b → step s = .next { s with pc := s.pc + 4 }) ∧
      ∀ t e, s.sourceValue 3 a = s.sourceValue 3 b → step s = .next t →
        translateAddr s.tt s.curPid (BitVec.ofNat 16 (addr.toNat + 1)) = .error e →
        step t = .next (faultEntry t .translationFault (addr.toNat + 1)))

/-- HALT's whole rule from its opcode byte on: the halt flag set, the current process's record `halted`, PC one past
the HALT byte, everything else kept, the fault latch among it; the machine then stays there, the host may read it, and only a start
goes on, from PC 0 with zero registers (spec/43_control.md R121). -/
def Obligations.HaltFollowsItsRule : Prop :=
  ∀ (s : State), s.Running →
    (∀ e, memReadByte s s.pc = .error e → step s = .next (faultEntry s e.cause e.info)) ∧
    (memReadByte s s.pc = .ok 0xFF →
    ∃ t, step s = .next t ∧
      t = { s with
        pc := s.pc + 1, haltFlag := true
        procs := s.procs.map (fun p => if p.id = s.curPid then { p with state := .halted } else p) } ∧
      (∀ k, Host.Core.run Sys2Proof.core k t = .next t) ∧
      observe t = some ⟨s.pc + 1, s.r1, s.r2, s.faultCause, s.faultInfo, t.procs⟩ ∧
      (∀ a, a < s.physSize → observeCell t a = some (s.mem.read a)) ∧
      ∀ pid u, start t pid = .next u → u.Running ∧ u.pc = 0 ∧ u.r1 = 0 ∧ u.r2 = 0)

/-! ## Every instruction completes -/

/-- LOAD_WORD completes wherever its address translates to two cells that exist (spec/41_load_store.md R100,
spec/40_execution_loop.md R85, R90). -/
def Obligations.LoadWordCompletes : Prop :=
  ∀ (s : State) (r : Reg) (addr : Byte) (pa : Nat),
    translateAddr s.tt s.curPid (BitVec.ofNat 16 addr.toNat) = .ok pa → pa + 1 < s.physSize →
    exec (.loadWord r.toByte addr) s = .next (s.afterResult
      (BitVec.ofNat 16 ((s.mem.read pa).toNat + 256 * (s.mem.read (pa + 1)).toNat)) r)

/-- STORE_WORD completes wherever its address translates to two cells that exist (spec/41_load_store.md R101). -/
def Obligations.StoreWordCompletes : Prop :=
  ∀ (s : State) (r : Reg) (addr : Byte) (pa : Nat),
    translateAddr s.tt s.curPid (BitVec.ofNat 16 addr.toNat) = .ok pa → pa + 1 < s.physSize →
    exec (.storeWord r.toByte addr) s = .next { s with
      pc := s.pc + 3
      mem := (s.mem.write pa (BitVec.ofNat 8 (s.sourceValue 2 r).toNat)).write (pa + 1)
        (BitVec.ofNat 8 ((s.sourceValue 2 r).toNat / 256)) }

/-- ADD and SUB complete in every state, for every pair of registers, PC among them (spec/42_arithmetic.md R110 to R112,
spec/40_execution_loop.md R85, R90). -/
def Obligations.ArithmeticCompletes : Prop :=
  ∀ (s : State) (d r : Reg),
    exec (.add d.toByte r.toByte) s = .next (s.afterResult
      (BitVec.ofNat 16 ((s.sourceValue 2 d).toNat + (s.sourceValue 2 r).toNat)) d) ∧
    exec (.sub d.toByte r.toByte) s = .next (s.afterResult
      (BitVec.ofNat 16 ((s.sourceValue 2 d).toNat + (65536 - (s.sourceValue 2 r).toNat))) d)

/-- BEQ and HALT complete in every state; the same register named twice always branches (spec/43_control.md R120,
R121). -/
def Obligations.ControlCompletes : Prop :=
  (∀ (s : State) (a b : Reg) (addr : Byte),
    exec (.beq a.toByte b.toByte addr) s = .next { s with
      pc := if s.sourceValue 3 a = s.sourceValue 3 b then BitVec.ofNat 16 (addr.toNat + 1) else s.pc + 4 }) ∧
  (∀ (s : State) (a : Reg) (addr : Byte),
    exec (.beq a.toByte a.toByte addr) s = .next { s with pc := BitVec.ofNat 16 (addr.toNat + 1) }) ∧
  ∀ s : State, exec .halt s = .next { s with
    pc := s.pc + 1, haltFlag := true
    procs := s.procs.map (fun p => if p.id = s.curPid then { p with state := .halted } else p) }

/-- Where LOAD_WORD and STORE_WORD trap: the register byte, then the translation, then the two cells, in that order, and
a store that traps writes nothing (spec/60_exceptions.md R139, spec/20_memory.md R38, R39). -/
def Obligations.LoadStoreTraps : Prop :=
  ∀ (s : State) (reg addr : Byte) (i : Instr), i = .loadWord reg addr ∨ i = .storeWord reg addr →
    (2 < reg.toNat → exec i s = .next (faultEntry s .invalidRegister reg.toNat)) ∧
    (reg.toNat ≤ 2 → ∀ e, translateAddr s.tt s.curPid (BitVec.ofNat 16 addr.toNat) = .error e →
      exec i s = .next (faultEntry s .translationFault addr.toNat)) ∧
    (reg.toNat ≤ 2 → ∀ pa, translateAddr s.tt s.curPid (BitVec.ofNat 16 addr.toNat) = .ok pa →
      (s.physSize ≤ pa → exec i s = .next (faultEntry s .physicalRangeFault pa)) ∧
      (s.physSize = pa + 1 → exec i s = .next (faultEntry s .physicalRangeFault (pa + 1))))

/-! ## Frames

The surroundings that the frames keep (`SameSurroundings`) hold one field of the model's own, the aborted loads: that no
instruction changes it is the model's choice (log 12). -/

/-- What LOAD_WORD leaves: every register but the one it names and PC, every byte of memory, the surroundings, and the
control state unless it took a fault (spec/41_load_store.md R100 (e), (f)). -/
def Obligations.LoadWordFrame : Prop :=
  ∀ (s t : State) (reg addr : Byte), exec (.loadWord reg addr) s = .next t →
    (reg ≠ 1#8 → t.r1 = s.r1) ∧ (reg ≠ 2#8 → t.r2 = s.r2) ∧
    (∀ a, t.mem.read a = s.mem.read a) ∧ SameSurroundings s t ∧ (SameControl s t ∨ FaultTaken s t)

/-- What STORE_WORD leaves: R1, R2, every byte of memory but the two at the translation of its address, the
surroundings, and the control state unless it took a fault (spec/41_load_store.md R101 (c), (e); spec/20_memory.md
R33, R39). -/
def Obligations.StoreWordFrame : Prop :=
  ∀ (s t : State) (reg addr : Byte), exec (.storeWord reg addr) s = .next t →
    t.r1 = s.r1 ∧ t.r2 = s.r2 ∧
    (∀ pa, translateAddr (s.afterOperands 2).tt (s.afterOperands 2).curPid (operandAddr addr) = .ok pa →
      ∀ a, a ≠ pa → a ≠ pa + 1 → t.mem.read a = s.mem.read a) ∧
    (∀ e, translateAddr (s.afterOperands 2).tt (s.afterOperands 2).curPid (operandAddr addr) = .error e →
      ∀ a, t.mem.read a = s.mem.read a) ∧
    SameSurroundings s t ∧ (SameControl s t ∨ (FaultTaken s t ∧ ∀ a, t.mem.read a = s.mem.read a))

/-- What ADD and SUB leave: every register but the first they name and PC, every byte of memory, the surroundings, and
the control state unless a register byte was bad (spec/42_arithmetic.md R110 (g), R111 (f)). -/
def Obligations.ArithmeticFrame : Prop :=
  ∀ (s t : State) (reg1 reg2 : Byte), (exec (.add reg1 reg2) s = .next t ∨ exec (.sub reg1 reg2) s = .next t) →
    (reg1 ≠ 1#8 → t.r1 = s.r1) ∧ (reg1 ≠ 2#8 → t.r2 = s.r2) ∧
    (∀ a, t.mem.read a = s.mem.read a) ∧ SameSurroundings s t ∧ (SameControl s t ∨ FaultTaken s t)

/-- What BEQ and HALT leave: R1, R2, every byte of memory and the surroundings; BEQ the control state unless a register
byte was bad; HALT the fault latch and the records of the other processes (spec/43_control.md R120 (g), R121). -/
def Obligations.ControlFrame : Prop :=
  (∀ (s t : State) (reg1 reg2 addr : Byte), exec (.beq reg1 reg2 addr) s = .next t →
    t.r1 = s.r1 ∧ t.r2 = s.r2 ∧ (∀ a, t.mem.read a = s.mem.read a) ∧ SameSurroundings s t ∧
    (SameControl s t ∨ FaultTaken s t)) ∧
  (∀ (s t : State), exec .halt s = .next t →
    t.r1 = s.r1 ∧ t.r2 = s.r2 ∧ (∀ a, t.mem.read a = s.mem.read a) ∧ SameSurroundings s t ∧
    t.faultCause = s.faultCause ∧ t.faultInfo = s.faultInfo ∧
    ∀ p : Proc, p.id ≠ s.curPid → (p ∈ t.procs ↔ p ∈ s.procs))

/-! ## Rules of the whole machine -/

/-- No instruction changes the translation table, the current process, the next id, the occupancy markers, `N` or the
aborted loads (spec/60_exceptions.md R143; spec/10_state.md R18 to R21; spec/00_scope.md R5 for `N`). The aborted loads
are the model's own field, and that no step changes them is the model's choice (log 12). -/
def Obligations.StepKeepsTheSurroundings : Prop :=
  ∀ (s t : State), step s = .next t → SameSurroundings s t

/-- R1 and R2 are written only by a LOAD_WORD, ADD or SUB that names them as its destination (spec/10_state.md R12). -/
def Obligations.GeneralRegistersWrittenOnlyByName : Prop :=
  ∀ (s t : State), s.Running → step s = .next t →
    (t.r1 ≠ s.r1 → ∃ i, fetchInstr s = .ok i ∧
      ((∃ addr, i = .loadWord 1#8 addr) ∨ (∃ r, i = .add 1#8 r) ∨ (∃ r, i = .sub 1#8 r))) ∧
    (t.r2 ≠ s.r2 → ∃ i, fetchInstr s = .ok i ∧
      ((∃ addr, i = .loadWord 2#8 addr) ∨ (∃ r, i = .add 2#8 r) ∨ (∃ r, i = .sub 2#8 r)))

/-- A byte of memory changes only by a STORE_WORD, in one of the two cells at the translation of its address, and that
cell exists (spec/20_memory.md R36, R39, R56). -/
def Obligations.MemoryWrittenOnlyByStoreWord : Prop :=
  ∀ (s t : State) (a : Nat), s.Running → step s = .next t → t.mem.read a ≠ s.mem.read a →
    ∃ reg addr pa, fetchInstr s = .ok (.storeWord reg addr) ∧
      translateAddr s.tt s.curPid (BitVec.ofNat 16 addr.toNat) = .ok pa ∧ (a = pa ∨ a = pa + 1) ∧ a < s.physSize

/-- Faults are precise: a cycle that ends with a fault latched has changed nothing but the latch, the halt flag and the
current process's record, so PC is the faulting instruction's address (spec/60_exceptions.md R140,
spec/40_execution_loop.md R87). -/
def Obligations.FaultsArePrecise : Prop :=
  ∀ (s t : State), s.Running → s.faultCause = .none → step s = .next t → t.faultCause ≠ .none →
    t = faultEntry s t.faultCause t.faultInfo

/-- A run stops in a cycle exactly when the cycle executes a HALT or takes a fault, and cleanly exactly when it executes
a HALT, PC then being the HALT byte's address plus 1 (spec/70_reset_and_hazards.md R181). -/
def Obligations.RunEndsByHaltOrFault : Prop :=
  ∀ (s t : State), s.Running → s.faultCause = .none → step s = .next t →
    (t.EndedCleanly ↔ fetchInstr s = .ok .halt) ∧
    (t.EndedByFault ↔ t.faultCause ≠ .none) ∧
    (t.EndedCleanly → t.pc = s.pc + 1) ∧ (t.EndedByFault → t.pc = s.pc)

/-- No step reads the fault latch, the process records, the next id, the occupancy markers or the aborted loads: of two
running machines that differ in those alone, either both take the same fault, or both make the same visible step and
each keeps its own latch; and each halts its own current record exactly when the step halts (spec/10_state.md R15 to
R17, R20, R21; spec/20_memory.md R33). The aborted loads are the model's own field, and that no step reads or changes
them is the model's choice (log 12). -/
def Obligations.ControlStateIsNotObserved : Prop :=
  ∀ (s u t : State), s.Running → u.Running →
    u.pc = s.pc → u.r1 = s.r1 → u.r2 = s.r2 → u.curPid = s.curPid → u.tt = s.tt → u.mem = s.mem →
    u.physSize = s.physSize → step s = .next t →
    ∃ v, step u = .next v ∧
      v = { u with
        pc := t.pc, r1 := t.r1, r2 := t.r2, mem := t.mem, haltFlag := t.haltFlag
        faultCause := v.faultCause, faultInfo := v.faultInfo
        procs := if t.haltFlag
          then u.procs.map (fun p => if p.id = u.curPid then { p with state := .halted } else p) else u.procs } ∧
      ((∃ cause info, cause ≠ .none ∧ t = faultEntry s cause info ∧ v = faultEntry u cause info) ∨
        (t.faultCause = s.faultCause ∧ t.faultInfo = s.faultInfo ∧
          v.faultCause = u.faultCause ∧ v.faultInfo = u.faultInfo))

/-- The entries of other processes are ignored: changing them changes no step of the current process
(spec/20_memory.md R42). -/
def Obligations.OtherProcessesEntriesAreIgnored : Prop :=
  ∀ (s t : State) (tt : List TTEntry),
    tt.filter (fun e => e.pid == s.curPid) = s.tt.filter (fun e => e.pid == s.curPid) →
    step s = .next t → step { s with tt := tt } = .next { t with tt := tt }

/-- Isolation: what the cells outside a process's reach hold has no effect on its step, and its step has none on them
(spec/20_memory.md R56, R45). -/
def Obligations.UnreachedCellsDoNotMatter : Prop :=
  ∀ (s t : State) (m : Memory), (∀ a, s.Reaches a → m.read a = s.mem.read a) → step s = .next t →
    ∃ u, step { s with mem := m } = .next u ∧ u = { t with mem := u.mem } ∧
      (∀ a, s.Reaches a → u.mem.read a = t.mem.read a) ∧ (∀ a, ¬ s.Reaches a → u.mem.read a = m.read a)

/-! ## Memory and arithmetic laws -/

/-- A word stored is the word loaded from the same address afterwards (spec/20_memory.md R34, R51). -/
def Obligations.StoredWordLoadsBack : Prop :=
  ∀ (s : State) (r d : Reg) (addr : Byte) (pa : Nat),
    translateAddr s.tt s.curPid (BitVec.ofNat 16 addr.toNat) = .ok pa → pa + 1 < s.physSize →
    ∃ t, exec (.storeWord r.toByte addr) s = .next t ∧
      exec (.loadWord d.toByte addr) t = .next (t.afterResult (s.sourceValue 2 r) d)

/-- A fetch sees the bytes a store has written: bits 7:0 of the word at the lower address, bits 15:8 at the higher, and
every other cell as before (spec/20_memory.md R34, R54). -/
def Obligations.FetchSeesStoredBytes : Prop :=
  ∀ (s t : State) (r : Reg) (addr : Byte) (pa qa : Nat) (la : Word),
    translateAddr s.tt s.curPid (BitVec.ofNat 16 addr.toNat) = .ok pa → pa + 1 < s.physSize →
    exec (.storeWord r.toByte addr) s = .next t →
    translateAddr s.tt s.curPid la = .ok qa → qa < s.physSize →
    memReadByte t la = .ok
      (if qa = pa then (s.sourceValue 2 r).extractLsb' 0 8
       else if qa = pa + 1 then (s.sourceValue 2 r).extractLsb' 8 8
       else s.mem.read qa)

/-- SUB after ADD of the same register restores the first one (spec/42_arithmetic.md R112). -/
def Obligations.SubUndoesAdd : Prop :=
  ∀ (s : State) (d r : Reg), d ≠ .pc → r ≠ .pc → d ≠ r →
    ∃ t u, exec (.add d.toByte r.toByte) s = .next t ∧ exec (.sub d.toByte r.toByte) t = .next u ∧
      u.r1 = s.r1 ∧ u.r2 = s.r2 ∧ u.pc = s.pc + 6

/-- Where a run can continue: a taken BEQ at 1 to 256 only, so never at 0 (spec/43_control.md R122,
spec/70_reset_and_hazards.md R177). -/
def Obligations.TakenBranchReach : Prop :=
  ∀ (s t : State) (a b : Reg) (addr : Byte), s.sourceValue 3 a = s.sourceValue 3 b →
    exec (.beq a.toByte b.toByte addr) s = .next t → t.pc.toNat = addr.toNat + 1 ∧ 1 ≤ t.pc.toNat ∧ t.pc.toNat ≤ 256

/-! ## Translation -/

/-- `Translate`: the unique entry of the process whose range contains the address places it; no entry, or two or more,
is a `TranslationFault` of the address; neither the order of the entries nor the entries of other processes matter
(spec/20_memory.md R42). -/
def Obligations.TranslateFollowsItsRule : Prop :=
  ∀ (tt : List TTEntry) (pid : Nat) (la : Word) (hits : List TTEntry),
    hits = tt.filter (fun e => decide (e.pid = pid ∧ e.logicalBase ≤ la.toNat ∧ la.toNat < e.logicalBase + e.length)) →
    (∀ e, hits = [e] → translateAddr tt pid la = .ok (e.physicalBase + (la.toNat - e.logicalBase))) ∧
    (hits = [] → translateAddr tt pid la = .error (.translationFault la)) ∧
    (2 ≤ hits.length → translateAddr tt pid la = .error (.translationFault la)) ∧
    (∀ tt', tt'.Perm tt → translateAddr tt' pid la = translateAddr tt pid la) ∧
    (∀ tt', tt'.filter (fun e => e.pid == pid) = tt.filter (fun e => e.pid == pid) →
      translateAddr tt' pid la = translateAddr tt pid la) ∧
    ((∀ e ∈ tt, e.pid ≠ pid) → translateAddr tt pid la = .error (.translationFault la))

/-- An address in two entries of one process faults, wherever the two stand in the table; an address that lies in only
one of them is translated by that one; and registering the two is not refused (spec/20_memory.md R43). -/
def Obligations.OverlapFaultsPerLookup : Prop :=
  ∀ (before between after : List TTEntry) (d e : TTEntry) (pid : Nat) (la : Word), d.pid = pid → e.pid = pid →
    (d.logicalBase ≤ la.toNat → la.toNat < d.logicalBase + d.length →
      e.logicalBase ≤ la.toNat → la.toNat < e.logicalBase + e.length →
      translateAddr (before ++ d :: between ++ e :: after) pid la = .error (.translationFault la)) ∧
    (d.logicalBase ≤ la.toNat → la.toNat < d.logicalBase + d.length →
      (∀ f ∈ before ++ between ++ e :: after, f.hits pid la = false) →
      translateAddr (before ++ d :: between ++ e :: after) pid la = .ok (d.physicalBase + (la.toNat - d.logicalBase))) ∧
    (e.logicalBase ≤ la.toNat → la.toNat < e.logicalBase + e.length →
      (∀ f ∈ before ++ d :: between ++ after, f.hits pid la = false) →
      translateAddr (before ++ d :: between ++ e :: after) pid la = .ok (e.physicalBase + (la.toNat - e.logicalBase))) ∧
    ∀ s : State, s.tt = before ++ d :: between → ttRegister s e = { s with tt := before ++ d :: between ++ [e] }

/-- An entry of length 0 matches no address and never contributes to a lookup (spec/20_memory.md R49). -/
def Obligations.ZeroLengthEntryNeverCounts : Prop :=
  ∀ (before after : List TTEntry) (e : TTEntry) (pid : Nat) (la : Word), e.length = 0 →
    e.hits pid la = false ∧ translateAddr (before ++ e :: after) pid la = translateAddr (before ++ after) pid la

/-- Within one entry translation preserves offsets (spec/20_memory.md R47 (c)). -/
def Obligations.TranslationPreservesOffsets : Prop :=
  ∀ (tt : List TTEntry) (pid : Nat) (la : Word) (n pa : Nat) (e : TTEntry),
    tt.filter (fun f => f.hits pid la) = [e] →
    tt.filter (fun f => f.hits pid (la + BitVec.ofNat 16 n)) = [e] →
    la.toNat + n < 65536 → translateAddr tt pid la = .ok pa →
    translateAddr tt pid (la + BitVec.ofNat 16 n) = .ok (pa + n)

/-- The flat configuration translates every address of memory to itself and no other, and there a physical range fault
can only come from the high byte of a word at `N - 1` (spec/20_memory.md R46, spec/00_scope.md R4). -/
def Obligations.FlatTableIsTheIdentity : Prop :=
  ∀ (s : State) (la : Word),
    s.tt.filter (fun e => e.pid == s.curPid) =
      [{ pid := s.curPid, logicalBase := 0, length := s.physSize, physicalBase := 0 }] →
    (la.toNat < s.physSize →
      translateAddr s.tt s.curPid la = .ok la.toNat ∧ memReadByte s la = .ok (s.mem.read la.toNat)) ∧
    (s.physSize ≤ la.toNat → translateAddr s.tt s.curPid la = .error (.translationFault la)) ∧
    (∀ pa, memReadByte s la ≠ .error (.physicalRangeFault pa)) ∧
    (∀ pa v, memReadWord s la = .error (.physicalRangeFault pa) ∨ memWriteWord s la v = .error (.physicalRangeFault pa) →
      la.toNat + 1 = s.physSize ∧ pa = s.physSize)

/-! ## Reset, start and the invariant -/

/-- The power-on values that the spec gives, for every `N` (spec/10_state.md R24, left column; spec/70_reset_and_hazards.md
R160). The registers and `CUR_PID` have no value there and are not spoken of. (That no load has been aborted is the
model's own field: log 12.) -/
def Obligations.PowerOnState : Prop :=
  ∀ n : Nat,
    (State.powerOn n).haltFlag = true ∧ (State.powerOn n).faultCause = .none ∧ (State.powerOn n).faultInfo = 0 ∧
    (State.powerOn n).procs = [] ∧ (State.powerOn n).tt = [] ∧ (State.powerOn n).nextPid = 1 ∧
    (State.powerOn n).abortedLoads = [] ∧
    (∀ pa, pa < n → physRead (State.powerOn n) pa = .ok (Config.memInit pa) ∧ pa ∉ (State.powerOn n).occ) ∧
    (∀ pa, n ≤ pa → physRead (State.powerOn n) pa = .error (.physicalRangeFault pa)) ∧
    (∀ k, Host.Core.run Sys2Proof.core k (State.powerOn n) = .next (State.powerOn n))

/-- The Executor start: what it sets, what it keeps, and when it is refused (spec/70_reset_and_hazards.md R163,
spec/10_state.md R24, right column). That it refuses a process whose load ran out of memory is
spec/93_implementation_defined.md U14 (R172; log 12). -/
def Obligations.StartFollowsItsRule : Prop :=
  ∀ (s : State) (pid : Nat),
    (s.haltFlag = true → (∃ p ∈ s.procs, p.id = pid) → pid ∉ s.abortedLoads →
      start s pid = .next { s with
        pc := 0, r1 := 0, r2 := 0, faultCause := .none, faultInfo := 0, curPid := pid, haltFlag := false
        procs := s.procs.map (fun p => if p.id = pid then { p with state := .running } else p) }) ∧
    (s.haltFlag = false → start s pid = .refused .startWhileRunning) ∧
    (s.haltFlag = true → (∀ p ∈ s.procs, p.id ≠ pid) → start s pid = .refused (.startUnknownProcess pid)) ∧
    (s.haltFlag = true → (∃ p ∈ s.procs, p.id = pid) → pid ∈ s.abortedLoads →
      start s pid = .refused (.startAbortedLoad pid))

/-- The invariant holds at reset (the `N` of reset is the model's choice: log 1; so are its register values: log 3; the
aborted loads are the model's own field: log 12). -/
def Obligations.ResetSatisfiesInv : Prop := State.reset.Inv

/-- Every step keeps the invariant, from every state that meets it (spec/10_state.md R15 to R21, spec/60_exceptions.md
R131 to R134). Its parts about the aborted loads are the model's own (log 12), and so is the exception for the flat
entry at `N = 65536` (log 14). -/
def Obligations.StepKeepsInv : Prop :=
  ∀ (s t : State), s.Inv → step s = .next t → t.Inv

/-- Every load keeps the invariant, one that runs out of memory too (spec/70_reset_and_hazards.md R170, R172). The
invariant's parts about the aborted loads are the model's own (log 12), as is its exception at `N = 65536` (log 14). -/
def Obligations.LoadKeepsInv : Prop :=
  ∀ (s t : State) (image : List Byte), s.Inv → s.haltFlag = true →
    ((∃ pid, load s image = .loaded pid t) ∨ load s image = .outOfMemory t) → t.Inv

/-- Every state that the machine's life reaches meets the invariant (spec/70_reset_and_hazards.md R161). The invariant's
parts about the aborted loads are the model's own (log 12), as is its exception at `N = 65536` (log 14). -/
def Obligations.ReachableStatesSatisfyInv : Prop :=
  ∀ s : State, Reachable s → s.Inv

/-! ## The allocator and the loader -/

/-- First fit: `allocate` answers the lowest free run in the whole array, marks exactly its cells and changes nothing
else; it answers none exactly when there is no such run (spec/70_reset_and_hazards.md R167, R168 (a)). -/
def Obligations.AllocateIsFirstFit : Prop :=
  ∀ (s : State) (len : Nat),
    (∀ b t, allocate s len = some (b, t) →
      b + len ≤ s.physSize ∧ (∀ i, i < len → b + i ∉ s.occ) ∧ (∀ c, c < b → ∃ i, i < len ∧ c + i ∈ s.occ) ∧
      t = { s with occ := t.occ } ∧ (∀ a, a ∈ t.occ ↔ a ∈ s.occ ∨ (b ≤ a ∧ a < b + len)) ∧
      (len = 0 → b = 0 ∧ t = s)) ∧
    (allocate s len = none ↔ ∀ b, b + len ≤ s.physSize → ∃ i, i < len ∧ b + i ∈ s.occ)

/-- Allocations never overlap, whatever the machine did between them, since no cell is ever freed
(spec/70_reset_and_hazards.md R168 (b), (c)). -/
def Obligations.AllocationsNeverOverlap : Prop :=
  ∀ (s t u v : State) (n m b c : Nat), allocate s n = some (b, t) → (∀ a, a ∈ t.occ → a ∈ u.occ) →
    allocate u m = some (c, v) → ∀ a, ¬ ((b ≤ a ∧ a < b + n) ∧ (c ≤ a ∧ a < c + m))

/-- `MalformedImage` is answered exactly under the three conditions of spec/70_reset_and_hazards.md R171. -/
def Obligations.MalformedImageConditions : Prop :=
  ∀ (s : State) (image : List Byte),
    load s image = .malformedImage ↔
      (image.length < 1 ∨
       1 + 3 * (image.getD 0 0).toNat > image.length ∨
       ∃ k, k < (image.getD 0 0).toNat ∧
         1 + 3 * (image.getD 0 0).toNat + (image.getD (3 + 3 * k) 0).toNat + (image.getD (2 + 3 * k) 0).toNat
           > image.length)

/-- A load that succeeds creates exactly one process, with the next id, and loads all its segments in header order;
registers, control state and `N` are kept (spec/70_reset_and_hazards.md R170, spec/10_state.md R16, R20). -/
def Obligations.LoadCreatesOneProcess : Prop :=
  ∀ (s t : State) (image : List Byte) (pid : Nat), load s image = .loaded pid t →
    pid = s.nextPid ∧ SegmentsLoaded s t image (image.getD 0 0).toNat ∧
    t = { s with
      nextPid := s.nextPid + 1, procs := s.procs ++ [{ id := pid, state := .running }]
      tt := t.tt, mem := t.mem, occ := t.occ }

/-- A load leaves prior allocations untouched, their bytes too, whether it succeeds or runs out of memory. When it runs
out at segment `k`, nothing is undone: the new process and its id remain, segments `0` to `k - 1` stay allocated, copied
and registered, nothing of segment `k` or a later one is done, and the process cannot be started
(spec/70_reset_and_hazards.md R168 (c), R172; the refusal is spec/93_implementation_defined.md U14, log 12). -/
def Obligations.LoadLeavesPriorAllocations : Prop :=
  ∀ (s t : State) (image : List Byte),
    ((∃ pid, load s image = .loaded pid t) ∨ load s image = .outOfMemory t →
      ∀ a, a ∈ s.occ → a ∈ t.occ ∧ t.mem.read a = s.mem.read a) ∧
    (load s image = .outOfMemory t →
      ∃ k, k < (image.getD 0 0).toNat ∧ SegmentsLoaded s t image k ∧
        allocate t (image.getD (2 + 3 * k) 0).toNat = none ∧
        t = { s with
          nextPid := s.nextPid + 1, procs := s.procs ++ [{ id := s.nextPid, state := .running }]
          tt := t.tt, mem := t.mem, occ := t.occ, abortedLoads := s.abortedLoads ++ [s.nextPid] } ∧
        (s.haltFlag = true → start t s.nextPid = .refused (.startAbortedLoad s.nextPid)))

/-- The round trip of a load: where no other entry of the new process contains an address of a segment, every byte of
the segment's payload is read, right after the load, at the translation of its logical address
(spec/70_reset_and_hazards.md R173, spec/20_memory.md R47 (a), (b)). -/
def Obligations.LoadRoundTrip : Prop :=
  ∀ (s t : State) (image : List Byte) (pid k j : Nat),
    (∀ e ∈ s.tt, e.pid ≠ s.nextPid) →
    load s image = .loaded pid t →
    k < (image.getD 0 0).toNat → j < (image.getD (2 + 3 * k) 0).toNat →
    (∀ k', k' < (image.getD 0 0).toNat → k' ≠ k →
      (image.getD (1 + 3 * k) 0).toNat % 128 + j < (image.getD (1 + 3 * k') 0).toNat % 128 ∨
      (image.getD (1 + 3 * k') 0).toNat % 128 + (image.getD (2 + 3 * k') 0).toNat ≤
        (image.getD (1 + 3 * k) 0).toNat % 128 + j) →
    ∃ pa, translateAddr t.tt pid (BitVec.ofNat 16 ((image.getD (1 + 3 * k) 0).toNat % 128 + j)) = .ok pa ∧
      pa < t.physSize ∧
      t.mem.read pa = image.getD (1 + 3 * (image.getD 0 0).toNat + (image.getD (3 + 3 * k) 0).toNat + j) 0

/-- The flat set-up and start of a preloaded memory: the run begins at PC 0 with zero registers, and every logical
address reads its own byte (spec/70_reset_and_hazards.md R162, R165, R163). -/
def Obligations.FlatLaunchReadsThePreloadedBytes : Prop :=
  ∀ bytes : List Byte, bytes.length ≤ 65536 →
    ∃ t, launchFlat bytes = .next t ∧ t.Running ∧ t.pc = 0 ∧ t.r1 = 0 ∧ t.r2 = 0 ∧ t.physSize = bytes.length ∧
      t.procs = [{ id := 1, state := .running }] ∧ t.tt = [{ pid := 1, logicalBase := 0, length := bytes.length, physicalBase := 0 }] ∧
      t.nextPid = 2 ∧ (∀ a, a ∈ t.occ ↔ a < bytes.length) ∧
      ∀ (la : Word) (b : Byte), bytes[la.toNat]? = some b → memReadByte t la = .ok b
end

