-- ==== Sys2Proof/Laws/Memory.lean ====
section
/-! SUPPORT. Physical memory: a read after a write, and the canonical form that every memory operation keeps. -/

namespace Sys2Proof.Machine

/-- What a write does to the listed bytes. -/
theorem Memory.lookup_write (m : Memory) (k a : Nat) (v : Byte) :
    Memory.lookup (Memory.write m k v) a = if a = k then some v else Memory.lookup m a := by
  induction m with
  | nil => rfl
  | cons c m ih =>
    obtain ⟨b, w⟩ := c
    rcases Nat.lt_trichotomy k b with below | rfl | above
    · simp [Memory.write, Memory.lookup, below]
    · by_cases h : a = k <;> simp [Memory.write, Memory.lookup, h]
    · have apart : k ≠ b := by omega
      by_cases h : a = b
      · subst h
        simp [Memory.write, Memory.lookup, Nat.not_lt.mpr above.le, apart, apart.symm]
      · simp [Memory.write, Memory.lookup, Nat.not_lt.mpr above.le, apart, h, ih]

/-- What a write does to every byte of memory. -/
theorem Memory.read_write (m : Memory) (k a : Nat) (v : Byte) :
    (m.write k v).read a = if a = k then v else m.read a := by
  unfold Memory.read
  rw [Memory.lookup_write]
  split_ifs <;> rfl

/-- Where the cells of a memory after a write come from. -/
theorem Memory.mem_write {m : Memory} {k : Nat} {v : Byte} {c : Host.Cell} (h : c ∈ m.write k v) :
    c = (k, v) ∨ c ∈ m := by
  induction m with
  | nil => simpa [Memory.write] using h
  | cons d m ih =>
    obtain ⟨b, w⟩ := d
    simp only [Memory.write] at h
    split_ifs at h
    · simpa using h
    · rcases List.mem_cons.mp h with h | h
      · exact .inl h
      · exact .inr (List.mem_cons_of_mem _ h)
    · rcases List.mem_cons.mp h with h | h
      · exact .inr (h ▸ List.mem_cons_self)
      · exact (ih h).imp_right (List.mem_cons_of_mem _)

/-- A write keeps the canonical form. -/
theorem Memory.write_wf {m : Memory} (k : Nat) (v : Byte) (canonical : m.wf) : (m.write k v).wf := by
  induction m with
  | nil => simp [Memory.write, Memory.wf]
  | cons d m ih =>
    obtain ⟨b, w⟩ := d
    obtain ⟨head, tail⟩ := List.pairwise_cons.mp canonical
    simp only [Memory.write]
    split_ifs with below same
    · refine List.pairwise_cons.mpr ⟨fun c hc => ?_, canonical⟩
      rcases List.mem_cons.mp hc with rfl | hc
      · exact below
      · exact below.trans (head c hc)
    · subst same
      exact List.pairwise_cons.mpr ⟨head, tail⟩
    · refine List.pairwise_cons.mpr ⟨fun c hc => ?_, ih tail⟩
      rcases Memory.mem_write hc with rfl | hc
      · show b < k
        omega
      · exact head c hc

/-- Writing bytes one after another keeps the canonical form. -/
theorem Memory.writeBytes_wf {m : Memory} (a : Nat) (bs : List Byte) (canonical : m.wf) :
    (m.writeBytes a bs).wf := by
  induction bs generalizing m a with
  | nil => exact canonical
  | cons b bs ih => exact ih (a + 1) (Memory.write_wf a b canonical)

/-- What writing bytes one after another does to every byte of memory. -/
theorem Memory.read_writeBytes (m : Memory) (a k : Nat) (bs : List Byte) :
    (m.writeBytes a bs).read k = if a ≤ k then bs.getD (k - a) (m.read k) else m.read k := by
  induction bs generalizing m a with
  | nil => simp [Memory.writeBytes]
  | cons b bs ih =>
    rw [Memory.writeBytes, ih, Memory.read_write]
    rcases Nat.lt_trichotomy k a with h | rfl | h
    · simp [show ¬ a ≤ k by omega, show ¬ a + 1 ≤ k by omega, show k ≠ a by omega]
    · simp
    · obtain ⟨d, rfl⟩ : ∃ d, k = a + (d + 1) := ⟨k - a - 1, by omega⟩
      simp [show a + (d + 1) - (a + 1) = d by omega, show a + 1 ≤ a + (d + 1) by omega]

/-- Where the cells of a memory after writing bytes come from. -/
theorem Memory.mem_writeBytes {m : Memory} {a : Nat} {bs : List Byte} {c : Host.Cell}
    (h : c ∈ m.writeBytes a bs) : (a ≤ c.1 ∧ c.1 < a + bs.length) ∨ c ∈ m := by
  induction bs generalizing m a with
  | nil => exact .inr h
  | cons b bs ih =>
    rcases ih h with ⟨h1, h2⟩ | h
    · left
      simp only [List.length_cons]
      omega
    · rcases Memory.mem_write h with rfl | h
      · left
        simp
      · exact .inr h

/-- The memory of the reset state has the canonical form. -/
theorem State.reset_mem_wf : State.reset.mem.wf := List.Pairwise.nil

/-- `physWrite` keeps the canonical form. -/
theorem physWrite_wf {s t : State} {pa : Nat} {b : Byte} (done : physWrite s pa b = .ok t) (canonical : s.mem.wf) :
    t.mem.wf := by
  unfold physWrite at done
  split_ifs at done
  cases done
  exact Memory.write_wf pa b canonical

end Sys2Proof.Machine
end

