-- ==== Sys2Proof/Laws/State.lean ====
section
/-! SUPPORT. The fields of the state after each named update: one lemma per field and update, so that no later proof
unfolds a record update. -/

namespace Sys2Proof.Machine

/-! ## advancePc -/

@[simp] theorem State.advancePc_pc (s : State) (n : Nat) : (s.advancePc n).pc = s.pc + BitVec.ofNat 16 n := rfl
@[simp] theorem State.advancePc_r1 (s : State) (n : Nat) : (s.advancePc n).r1 = s.r1 := rfl
@[simp] theorem State.advancePc_r2 (s : State) (n : Nat) : (s.advancePc n).r2 = s.r2 := rfl
@[simp] theorem State.advancePc_haltFlag (s : State) (n : Nat) : (s.advancePc n).haltFlag = s.haltFlag := rfl
@[simp] theorem State.advancePc_faultCause (s : State) (n : Nat) : (s.advancePc n).faultCause = s.faultCause := rfl
@[simp] theorem State.advancePc_faultInfo (s : State) (n : Nat) : (s.advancePc n).faultInfo = s.faultInfo := rfl
@[simp] theorem State.advancePc_curPid (s : State) (n : Nat) : (s.advancePc n).curPid = s.curPid := rfl
@[simp] theorem State.advancePc_procs (s : State) (n : Nat) : (s.advancePc n).procs = s.procs := rfl
@[simp] theorem State.advancePc_tt (s : State) (n : Nat) : (s.advancePc n).tt = s.tt := rfl
@[simp] theorem State.advancePc_nextPid (s : State) (n : Nat) : (s.advancePc n).nextPid = s.nextPid := rfl
@[simp] theorem State.advancePc_mem (s : State) (n : Nat) : (s.advancePc n).mem = s.mem := rfl
@[simp] theorem State.advancePc_occ (s : State) (n : Nat) : (s.advancePc n).occ = s.occ := rfl
@[simp] theorem State.advancePc_physSize (s : State) (n : Nat) : (s.advancePc n).physSize = s.physSize := rfl
@[simp] theorem State.advancePc_abortedLoads (s : State) (n : Nat) : (s.advancePc n).abortedLoads = s.abortedLoads := rfl

/-! ## afterOperands -/

@[simp] theorem State.afterOperands_pc (s : State) (n : Nat) : (s.afterOperands n).pc = s.pc + BitVec.ofNat 16 n := rfl
@[simp] theorem State.afterOperands_r1 (s : State) (n : Nat) : (s.afterOperands n).r1 = s.r1 := rfl
@[simp] theorem State.afterOperands_r2 (s : State) (n : Nat) : (s.afterOperands n).r2 = s.r2 := rfl
@[simp] theorem State.afterOperands_haltFlag (s : State) (n : Nat) : (s.afterOperands n).haltFlag = s.haltFlag := rfl
@[simp] theorem State.afterOperands_faultCause (s : State) (n : Nat) : (s.afterOperands n).faultCause = s.faultCause := rfl
@[simp] theorem State.afterOperands_faultInfo (s : State) (n : Nat) : (s.afterOperands n).faultInfo = s.faultInfo := rfl
@[simp] theorem State.afterOperands_curPid (s : State) (n : Nat) : (s.afterOperands n).curPid = s.curPid := rfl
@[simp] theorem State.afterOperands_procs (s : State) (n : Nat) : (s.afterOperands n).procs = s.procs := rfl
@[simp] theorem State.afterOperands_tt (s : State) (n : Nat) : (s.afterOperands n).tt = s.tt := rfl
@[simp] theorem State.afterOperands_nextPid (s : State) (n : Nat) : (s.afterOperands n).nextPid = s.nextPid := rfl
@[simp] theorem State.afterOperands_mem (s : State) (n : Nat) : (s.afterOperands n).mem = s.mem := rfl
@[simp] theorem State.afterOperands_occ (s : State) (n : Nat) : (s.afterOperands n).occ = s.occ := rfl
@[simp] theorem State.afterOperands_physSize (s : State) (n : Nat) : (s.afterOperands n).physSize = s.physSize := rfl
@[simp] theorem State.afterOperands_abortedLoads (s : State) (n : Nat) : (s.afterOperands n).abortedLoads = s.abortedLoads := rfl

/-! ## writeReg and readReg -/

@[simp] theorem State.writeReg_pc_pc (s : State) (v : Word) : (s.writeReg .pc v).pc = v := rfl
@[simp] theorem State.writeReg_pc_r1 (s : State) (v : Word) : (s.writeReg .pc v).r1 = s.r1 := rfl
@[simp] theorem State.writeReg_pc_r2 (s : State) (v : Word) : (s.writeReg .pc v).r2 = s.r2 := rfl
@[simp] theorem State.writeReg_r1_pc (s : State) (v : Word) : (s.writeReg .r1 v).pc = s.pc := rfl
@[simp] theorem State.writeReg_r1_r1 (s : State) (v : Word) : (s.writeReg .r1 v).r1 = v := rfl
@[simp] theorem State.writeReg_r1_r2 (s : State) (v : Word) : (s.writeReg .r1 v).r2 = s.r2 := rfl
@[simp] theorem State.writeReg_r2_pc (s : State) (v : Word) : (s.writeReg .r2 v).pc = s.pc := rfl
@[simp] theorem State.writeReg_r2_r1 (s : State) (v : Word) : (s.writeReg .r2 v).r1 = s.r1 := rfl
@[simp] theorem State.writeReg_r2_r2 (s : State) (v : Word) : (s.writeReg .r2 v).r2 = v := rfl

@[simp] theorem State.writeReg_haltFlag (s : State) (r : Reg) (v : Word) : (s.writeReg r v).haltFlag = s.haltFlag := by cases r <;> rfl
@[simp] theorem State.writeReg_faultCause (s : State) (r : Reg) (v : Word) : (s.writeReg r v).faultCause = s.faultCause := by cases r <;> rfl
@[simp] theorem State.writeReg_faultInfo (s : State) (r : Reg) (v : Word) : (s.writeReg r v).faultInfo = s.faultInfo := by cases r <;> rfl
@[simp] theorem State.writeReg_curPid (s : State) (r : Reg) (v : Word) : (s.writeReg r v).curPid = s.curPid := by cases r <;> rfl
@[simp] theorem State.writeReg_procs (s : State) (r : Reg) (v : Word) : (s.writeReg r v).procs = s.procs := by cases r <;> rfl
@[simp] theorem State.writeReg_tt (s : State) (r : Reg) (v : Word) : (s.writeReg r v).tt = s.tt := by cases r <;> rfl
@[simp] theorem State.writeReg_nextPid (s : State) (r : Reg) (v : Word) : (s.writeReg r v).nextPid = s.nextPid := by cases r <;> rfl
@[simp] theorem State.writeReg_mem (s : State) (r : Reg) (v : Word) : (s.writeReg r v).mem = s.mem := by cases r <;> rfl
@[simp] theorem State.writeReg_occ (s : State) (r : Reg) (v : Word) : (s.writeReg r v).occ = s.occ := by cases r <;> rfl
@[simp] theorem State.writeReg_physSize (s : State) (r : Reg) (v : Word) : (s.writeReg r v).physSize = s.physSize := by cases r <;> rfl
@[simp] theorem State.writeReg_abortedLoads (s : State) (r : Reg) (v : Word) : (s.writeReg r v).abortedLoads = s.abortedLoads := by cases r <;> rfl

@[simp] theorem State.readReg_pc (s : State) : s.readReg .pc = s.pc := rfl
@[simp] theorem State.readReg_r1 (s : State) : s.readReg .r1 = s.r1 := rfl
@[simp] theorem State.readReg_r2 (s : State) : s.readReg .r2 = s.r2 := rfl

/-- A register reads what was written to it, and the others read as before. -/
theorem State.readReg_writeReg (s : State) (r q : Reg) (v : Word) :
    (s.writeReg r v).readReg q = if q = r then v else s.readReg q := by
  cases r <;> cases q <;> rfl

/-! ## stopCurrent -/

@[simp] theorem State.stopCurrent_pc (s : State) : (s.stopCurrent).pc = s.pc := rfl
@[simp] theorem State.stopCurrent_r1 (s : State) : (s.stopCurrent).r1 = s.r1 := rfl
@[simp] theorem State.stopCurrent_r2 (s : State) : (s.stopCurrent).r2 = s.r2 := rfl
@[simp] theorem State.stopCurrent_haltFlag (s : State) : (s.stopCurrent).haltFlag = true := rfl
@[simp] theorem State.stopCurrent_faultCause (s : State) : (s.stopCurrent).faultCause = s.faultCause := rfl
@[simp] theorem State.stopCurrent_faultInfo (s : State) : (s.stopCurrent).faultInfo = s.faultInfo := rfl
@[simp] theorem State.stopCurrent_curPid (s : State) : (s.stopCurrent).curPid = s.curPid := rfl
@[simp] theorem State.stopCurrent_procs (s : State) : (s.stopCurrent).procs = setProcState s.procs s.curPid .halted := rfl
@[simp] theorem State.stopCurrent_tt (s : State) : (s.stopCurrent).tt = s.tt := rfl
@[simp] theorem State.stopCurrent_nextPid (s : State) : (s.stopCurrent).nextPid = s.nextPid := rfl
@[simp] theorem State.stopCurrent_mem (s : State) : (s.stopCurrent).mem = s.mem := rfl
@[simp] theorem State.stopCurrent_occ (s : State) : (s.stopCurrent).occ = s.occ := rfl
@[simp] theorem State.stopCurrent_physSize (s : State) : (s.stopCurrent).physSize = s.physSize := rfl
@[simp] theorem State.stopCurrent_abortedLoads (s : State) : (s.stopCurrent).abortedLoads = s.abortedLoads := rfl

/-! ## takeFault -/

@[simp] theorem takeFault_pc (s : State) (e : Exc) : (takeFault s e).pc = s.pc := rfl
@[simp] theorem takeFault_r1 (s : State) (e : Exc) : (takeFault s e).r1 = s.r1 := rfl
@[simp] theorem takeFault_r2 (s : State) (e : Exc) : (takeFault s e).r2 = s.r2 := rfl
@[simp] theorem takeFault_haltFlag (s : State) (e : Exc) : (takeFault s e).haltFlag = true := rfl
@[simp] theorem takeFault_faultCause (s : State) (e : Exc) : (takeFault s e).faultCause = e.cause := rfl
@[simp] theorem takeFault_faultInfo (s : State) (e : Exc) : (takeFault s e).faultInfo = e.info := rfl
@[simp] theorem takeFault_curPid (s : State) (e : Exc) : (takeFault s e).curPid = s.curPid := rfl
@[simp] theorem takeFault_procs (s : State) (e : Exc) : (takeFault s e).procs = setProcState s.procs s.curPid .halted := rfl
@[simp] theorem takeFault_tt (s : State) (e : Exc) : (takeFault s e).tt = s.tt := rfl
@[simp] theorem takeFault_nextPid (s : State) (e : Exc) : (takeFault s e).nextPid = s.nextPid := rfl
@[simp] theorem takeFault_mem (s : State) (e : Exc) : (takeFault s e).mem = s.mem := rfl
@[simp] theorem takeFault_occ (s : State) (e : Exc) : (takeFault s e).occ = s.occ := rfl
@[simp] theorem takeFault_physSize (s : State) (e : Exc) : (takeFault s e).physSize = s.physSize := rfl
@[simp] theorem takeFault_abortedLoads (s : State) (e : Exc) : (takeFault s e).abortedLoads = s.abortedLoads := rfl

/-! ## ttRegister -/

@[simp] theorem ttRegister_pc (s : State) (e : TTEntry) : (ttRegister s e).pc = s.pc := rfl
@[simp] theorem ttRegister_r1 (s : State) (e : TTEntry) : (ttRegister s e).r1 = s.r1 := rfl
@[simp] theorem ttRegister_r2 (s : State) (e : TTEntry) : (ttRegister s e).r2 = s.r2 := rfl
@[simp] theorem ttRegister_haltFlag (s : State) (e : TTEntry) : (ttRegister s e).haltFlag = s.haltFlag := rfl
@[simp] theorem ttRegister_faultCause (s : State) (e : TTEntry) : (ttRegister s e).faultCause = s.faultCause := rfl
@[simp] theorem ttRegister_faultInfo (s : State) (e : TTEntry) : (ttRegister s e).faultInfo = s.faultInfo := rfl
@[simp] theorem ttRegister_curPid (s : State) (e : TTEntry) : (ttRegister s e).curPid = s.curPid := rfl
@[simp] theorem ttRegister_procs (s : State) (e : TTEntry) : (ttRegister s e).procs = s.procs := rfl
@[simp] theorem ttRegister_tt (s : State) (e : TTEntry) : (ttRegister s e).tt = s.tt ++ [e] := rfl
@[simp] theorem ttRegister_nextPid (s : State) (e : TTEntry) : (ttRegister s e).nextPid = s.nextPid := rfl
@[simp] theorem ttRegister_mem (s : State) (e : TTEntry) : (ttRegister s e).mem = s.mem := rfl
@[simp] theorem ttRegister_occ (s : State) (e : TTEntry) : (ttRegister s e).occ = s.occ := rfl
@[simp] theorem ttRegister_physSize (s : State) (e : TTEntry) : (ttRegister s e).physSize = s.physSize := rfl
@[simp] theorem ttRegister_abortedLoads (s : State) (e : TTEntry) : (ttRegister s e).abortedLoads = s.abortedLoads := rfl

/-! ## createProcess -/

@[simp] theorem createProcess_pc (s : State) : (createProcess s).pc = s.pc := rfl
@[simp] theorem createProcess_r1 (s : State) : (createProcess s).r1 = s.r1 := rfl
@[simp] theorem createProcess_r2 (s : State) : (createProcess s).r2 = s.r2 := rfl
@[simp] theorem createProcess_haltFlag (s : State) : (createProcess s).haltFlag = s.haltFlag := rfl
@[simp] theorem createProcess_faultCause (s : State) : (createProcess s).faultCause = s.faultCause := rfl
@[simp] theorem createProcess_faultInfo (s : State) : (createProcess s).faultInfo = s.faultInfo := rfl
@[simp] theorem createProcess_curPid (s : State) : (createProcess s).curPid = s.curPid := rfl
@[simp] theorem createProcess_procs (s : State) : (createProcess s).procs = s.procs ++ [{ id := s.nextPid, state := .running }] := rfl
@[simp] theorem createProcess_tt (s : State) : (createProcess s).tt = s.tt := rfl
@[simp] theorem createProcess_nextPid (s : State) : (createProcess s).nextPid = s.nextPid + 1 := rfl
@[simp] theorem createProcess_mem (s : State) : (createProcess s).mem = s.mem := rfl
@[simp] theorem createProcess_occ (s : State) : (createProcess s).occ = s.occ := rfl
@[simp] theorem createProcess_physSize (s : State) : (createProcess s).physSize = s.physSize := rfl
@[simp] theorem createProcess_abortedLoads (s : State) : (createProcess s).abortedLoads = s.abortedLoads := rfl

/-! ## abortLoad -/

@[simp] theorem abortLoad_pc (s : State) (pid : Nat) : (abortLoad s pid).pc = s.pc := rfl
@[simp] theorem abortLoad_r1 (s : State) (pid : Nat) : (abortLoad s pid).r1 = s.r1 := rfl
@[simp] theorem abortLoad_r2 (s : State) (pid : Nat) : (abortLoad s pid).r2 = s.r2 := rfl
@[simp] theorem abortLoad_haltFlag (s : State) (pid : Nat) : (abortLoad s pid).haltFlag = s.haltFlag := rfl
@[simp] theorem abortLoad_faultCause (s : State) (pid : Nat) : (abortLoad s pid).faultCause = s.faultCause := rfl
@[simp] theorem abortLoad_faultInfo (s : State) (pid : Nat) : (abortLoad s pid).faultInfo = s.faultInfo := rfl
@[simp] theorem abortLoad_curPid (s : State) (pid : Nat) : (abortLoad s pid).curPid = s.curPid := rfl
@[simp] theorem abortLoad_procs (s : State) (pid : Nat) : (abortLoad s pid).procs = s.procs := rfl
@[simp] theorem abortLoad_tt (s : State) (pid : Nat) : (abortLoad s pid).tt = s.tt := rfl
@[simp] theorem abortLoad_nextPid (s : State) (pid : Nat) : (abortLoad s pid).nextPid = s.nextPid := rfl
@[simp] theorem abortLoad_mem (s : State) (pid : Nat) : (abortLoad s pid).mem = s.mem := rfl
@[simp] theorem abortLoad_occ (s : State) (pid : Nat) : (abortLoad s pid).occ = s.occ := rfl
@[simp] theorem abortLoad_physSize (s : State) (pid : Nat) : (abortLoad s pid).physSize = s.physSize := rfl
@[simp] theorem abortLoad_abortedLoads (s : State) (pid : Nat) : (abortLoad s pid).abortedLoads = s.abortedLoads ++ [pid] := rfl

/-- A fault's cause is never `None`, so a faulted run is told from a clean halt (spec/60_exceptions.md R140). -/
@[simp] theorem Exc.cause_ne_none (e : Exc) : e.cause ≠ .none := by cases e <;> simp [Exc.cause]

end Sys2Proof.Machine
end

