-- ==== Sys2Proof/Laws/Ops.lean ====
section
/-! SUPPORT. One law for each shared operation and outcome: everything the operation can do, so that a proof cites the law
and does not unfold the operation. -/

namespace Sys2Proof.Machine

/-! ## Sequencing of attempts -/

@[simp] theorem attempt_ok_bind {α β : Type} (a : α) (f : α → Except Exc β) : ((.ok a : Except Exc α) >>= f) = f a := rfl

@[simp] theorem attempt_error_bind {α β : Type} (e : Exc) (f : α → Except Exc β) :
    ((.error e : Except Exc α) >>= f) = .error e := rfl

/-- A sequence succeeds exactly when both halves do. -/
theorem attempt_bind_ok_iff {α β : Type} {x : Except Exc α} {f : α → Except Exc β} {b : β} :
    (x >>= f) = .ok b ↔ ∃ a, x = .ok a ∧ f a = .ok b := by
  cases x <;> simp

/-- A sequence fails with its first failure. -/
theorem attempt_bind_error_iff {α β : Type} {x : Except Exc α} {f : α → Except Exc β} {e : Exc} :
    (x >>= f) = .error e ↔ x = .error e ∨ ∃ a, x = .ok a ∧ f a = .error e := by
  cases x <;> simp

/-! ## The memory port -/

theorem physRead_ok_iff {s : State} {pa : Nat} {b : Byte} :
    physRead s pa = .ok b ↔ pa < s.physSize ∧ s.mem.read pa = b := by
  unfold physRead
  split_ifs with h <;> simp [h]

theorem physRead_error_iff {s : State} {pa : Nat} {e : Exc} :
    physRead s pa = .error e ↔ s.physSize ≤ pa ∧ e = .physicalRangeFault pa := by
  unfold physRead
  split_ifs with h
  · simp [h]
  · simp [Nat.not_lt.mp h, eq_comm]

theorem physWrite_ok_iff {s t : State} {pa : Nat} {b : Byte} :
    physWrite s pa b = .ok t ↔ pa < s.physSize ∧ t = { s with mem := s.mem.write pa b } := by
  unfold physWrite
  split_ifs with h <;> simp [h, eq_comm]

/-! ## Translation -/

/-- Whether an entry contains an address (spec/20_memory.md R42). -/
theorem TTEntry.hits_iff {e : TTEntry} {pid : Nat} {la : Word} :
    e.hits pid la = true ↔ e.pid = pid ∧ e.logicalBase ≤ la.toNat ∧ la.toNat < e.logicalBase + e.length := by
  simp [TTEntry.hits, and_assoc]

/-- A translation that succeeds was placed by the one entry that contains the address. -/
theorem translateAddr_ok_iff {tt : List TTEntry} {pid : Nat} {la : Word} {pa : Nat} :
    translateAddr tt pid la = .ok pa ↔
      ∃ e, tt.filter (fun e => e.hits pid la) = [e] ∧ pa = e.physicalBase + (la.toNat - e.logicalBase) := by
  unfold translateAddr
  split
  · next e h => simp [h, eq_comm]
  · next h => simp_all

/-- A translation that fails has no entry, or more than one, that contains the address. -/
theorem translateAddr_error_iff {tt : List TTEntry} {pid : Nat} {la : Word} {e : Exc} :
    translateAddr tt pid la = .error e ↔
      (tt.filter (fun e => e.hits pid la)).length ≠ 1 ∧ e = .translationFault la := by
  unfold translateAddr
  split
  · next d h => simp [h]
  · next h =>
    have : (tt.filter (fun e => e.hits pid la)).length ≠ 1 := fun one => by
      obtain ⟨d, hd⟩ := List.length_eq_one_iff.mp one
      exact h d hd
    simp [this, eq_comm]

/-- The entry that placed an address is in the table and contains it. -/
theorem translateAddr_ok_entry {tt : List TTEntry} {pid : Nat} {la : Word} {pa : Nat}
    (placed : translateAddr tt pid la = .ok pa) :
    ∃ e ∈ tt, e.hits pid la = true ∧ pa = e.physicalBase + (la.toNat - e.logicalBase) := by
  obtain ⟨e, only, rfl⟩ := translateAddr_ok_iff.mp placed
  have member : e ∈ tt.filter (fun e => e.hits pid la) := by simp [only]
  exact ⟨e, (List.mem_filter.mp member).1, (List.mem_filter.mp member).2, rfl⟩

/-! ## Logical accesses -/

theorem memReadByte_ok_iff {s : State} {la : Word} {b : Byte} :
    memReadByte s la = .ok b ↔
      ∃ pa, translateAddr s.tt s.curPid la = .ok pa ∧ pa < s.physSize ∧ s.mem.read pa = b := by
  simp only [memReadByte, attempt_bind_ok_iff, physRead_ok_iff]

theorem memReadByte_error_iff {s : State} {la : Word} {e : Exc} :
    memReadByte s la = .error e ↔
      translateAddr s.tt s.curPid la = .error e ∨
      ∃ pa, translateAddr s.tt s.curPid la = .ok pa ∧ s.physSize ≤ pa ∧ e = .physicalRangeFault pa := by
  simp only [memReadByte, attempt_bind_error_iff, physRead_error_iff]

theorem memReadWord_ok_iff {s : State} {la v : Word} :
    memReadWord s la = .ok v ↔
      ∃ pa, translateAddr s.tt s.curPid la = .ok pa ∧ pa + 1 < s.physSize ∧
        v = wordOfBytes (s.mem.read pa) (s.mem.read (pa + 1)) := by
  simp only [memReadWord, attempt_bind_ok_iff, physRead_ok_iff]
  constructor
  · rintro ⟨pa, placed, lo, ⟨_, rfl⟩, hi, ⟨inside, rfl⟩, ⟨⟩⟩
    exact ⟨pa, placed, inside, rfl⟩
  · rintro ⟨pa, placed, inside, rfl⟩
    exact ⟨pa, placed, _, ⟨by omega, rfl⟩, _, ⟨inside, rfl⟩, rfl⟩

theorem memReadWord_error_iff {s : State} {la : Word} {e : Exc} :
    memReadWord s la = .error e ↔
      translateAddr s.tt s.curPid la = .error e ∨
      ∃ pa, translateAddr s.tt s.curPid la = .ok pa ∧
        (s.physSize ≤ pa ∧ e = .physicalRangeFault pa ∨ s.physSize = pa + 1 ∧ e = .physicalRangeFault (pa + 1)) := by
  simp only [memReadWord, attempt_bind_error_iff, physRead_error_iff, physRead_ok_iff]
  constructor
  · rintro (h | ⟨pa, placed, h | ⟨lo, ⟨low, -⟩, ⟨high, rfl⟩ | ⟨_, _, ⟨⟩⟩⟩⟩)
    · exact .inl h
    · exact .inr ⟨pa, placed, .inl h⟩
    · exact .inr ⟨pa, placed, .inr ⟨by omega, rfl⟩⟩
  · rintro (h | ⟨pa, placed, h | ⟨high, rfl⟩⟩)
    · exact .inl h
    · exact .inr ⟨pa, placed, .inl h⟩
    · exact .inr ⟨pa, placed, .inr ⟨_, ⟨by omega, rfl⟩, .inl ⟨by omega, rfl⟩⟩⟩

theorem memWriteWord_ok_iff {s t : State} {la v : Word} :
    memWriteWord s la v = .ok t ↔
      ∃ pa, translateAddr s.tt s.curPid la = .ok pa ∧ pa + 1 < s.physSize ∧
        t = { s with mem := (s.mem.write pa (lowByte v)).write (pa + 1) (highByte v) } := by
  simp only [memWriteWord, attempt_bind_ok_iff]
  constructor
  · rintro ⟨pa, placed, h⟩
    split_ifs at h with low high
    obtain ⟨u, first, second⟩ := attempt_bind_ok_iff.mp h
    obtain ⟨_, rfl⟩ := physWrite_ok_iff.mp first
    obtain ⟨_, rfl⟩ := physWrite_ok_iff.mp second
    exact ⟨pa, placed, by omega, rfl⟩
  · rintro ⟨pa, placed, inside, rfl⟩
    refine ⟨pa, placed, ?_⟩
    rw [if_neg (by omega), if_neg (by omega)]
    refine attempt_bind_ok_iff.mpr ⟨_, physWrite_ok_iff.mpr ⟨by omega, rfl⟩, physWrite_ok_iff.mpr ⟨inside, rfl⟩⟩

theorem memWriteWord_error_iff {s : State} {la v : Word} {e : Exc} :
    memWriteWord s la v = .error e ↔
      translateAddr s.tt s.curPid la = .error e ∨
      ∃ pa, translateAddr s.tt s.curPid la = .ok pa ∧
        (s.physSize ≤ pa ∧ e = .physicalRangeFault pa ∨ s.physSize = pa + 1 ∧ e = .physicalRangeFault (pa + 1)) := by
  simp only [memWriteWord, attempt_bind_error_iff]
  refine or_congr_right (exists_congr fun pa => and_congr_right fun _ => ?_)
  split_ifs with low high
  · simp [low, show s.physSize ≠ pa + 1 by omega, eq_comm]
  · simp [show s.physSize = pa + 1 by omega, eq_comm]
  · simp [physWrite, if_pos (show pa < s.physSize by omega), if_pos (show pa + 1 < s.physSize by omega), low,
      show s.physSize ≠ pa + 1 by omega]

/-! ## Operands -/

theorem operandReg_ok_iff {b : Byte} {r : Reg} : operandReg b = .ok r ↔ b = r.toByte := by
  unfold operandReg
  split_ifs with h0 h1 h2
  · subst h0; cases r <;> simp [Reg.toByte]
  · subst h1; cases r <;> simp [Reg.toByte]
  · subst h2; cases r <;> simp [Reg.toByte]
  · cases r <;> simp [Reg.toByte, h0, h1, h2]

@[simp] theorem operandReg_toByte (r : Reg) : operandReg r.toByte = .ok r := operandReg_ok_iff.mpr rfl

theorem operandReg_error_iff {b : Byte} {e : Exc} :
    operandReg b = .error e ↔ 2 < b.toNat ∧ e = .invalidRegister b := by
  unfold operandReg
  have small : b.toNat ≤ 2 ↔ b = 0#8 ∨ b = 1#8 ∨ b = 2#8 := by
    simp only [BitVec.toNat_eq, BitVec.toNat_ofNat]
    omega
  split_ifs with h0 h1 h2
  · subst h0; simp
  · subst h1; simp
  · subst h2; simp
  · have large : ¬ b.toNat ≤ 2 := by simp [small, h0, h1, h2]
    simp [Nat.not_le.mp large, eq_comm]

/-- The bytes that name a register are 0, 1 and 2 (spec/10_state.md R11). -/
theorem registerByte_iff {b : Byte} : RegisterByte b ↔ ∃ r : Reg, b = r.toByte := by
  constructor
  · intro small
    rcases h : operandReg b with e | r
    · have := (operandReg_error_iff.mp h).1
      omega
    · exact ⟨r, operandReg_ok_iff.mp h⟩
  · rintro ⟨r, rfl⟩
    cases r <;> decide

/-! ## The end of a cycle, faults and process records -/

/-- A cycle always ends in a next state: completed, or with its fault taken. -/
theorem completeCycle_next_iff {s t : State} {r : Except Exc State} :
    completeCycle s r = .next t ↔
      (∃ u, r = .ok u ∧ t = u.advancePc 1) ∨ (∃ e, r = .error e ∧ t = takeFault s e) := by
  cases r <;> simp [completeCycle, eq_comm]

@[simp] theorem completeCycle_ok (s u : State) : completeCycle s (.ok u) = .next (u.advancePc 1) := rfl

@[simp] theorem completeCycle_error (s : State) (e : Exc) : completeCycle s (.error e) = .next (takeFault s e) := rfl

/-- Changing a record's `state` changes no id and no number of records. -/
@[simp] theorem setProcState_ids (procs : List Proc) (pid : Nat) (st : ProcState) :
    (setProcState procs pid st).map Proc.id = procs.map Proc.id := by
  simp only [setProcState, List.map_map]
  refine List.map_congr_left fun p _ => ?_
  simp only [Function.comp]
  split_ifs <;> rfl

/-- The records after a change of one record's `state`. -/
theorem mem_setProcState {procs : List Proc} {pid : Nat} {st : ProcState} {q : Proc} :
    q ∈ setProcState procs pid st ↔
      ∃ p ∈ procs, q = if p.id = pid then { p with state := st } else p := by
  simp [setProcState, eq_comm]

/-- What an accepted start leaves, and when one is accepted (spec/70_reset_and_hazards.md R163, R172). -/
theorem start_next_iff {s t : State} {pid : Nat} :
    start s pid = .next t ↔
      s.haltFlag = true ∧ (∃ p ∈ s.procs, p.id = pid) ∧ pid ∉ s.abortedLoads ∧
      t = { s with
        pc := 0, r1 := 0, r2 := 0, faultCause := .none, faultInfo := 0, curPid := pid
        procs := setProcState s.procs pid .running, haltFlag := false } := by
  unfold start
  rcases hh : s.haltFlag with _ | _
  · simp
  · by_cases known : ∃ p ∈ s.procs, p.id = pid
    · have : s.procs.any (fun p => p.id == pid) = true := by simpa using known
      by_cases aborted : pid ∈ s.abortedLoads
      · simp [this, aborted]
      · simp [this, known, aborted, eq_comm (a := t)]
    · have : s.procs.any (fun p => p.id == pid) = false := by simpa using known
      simp [this, known]

end Sys2Proof.Machine
end

