-- ==== Sys2Proof/Laws/Boot.lean ====
section
/-! SUPPORT. The host's operations: what marking, searching and loading one segment do. -/

namespace Sys2Proof.Machine

/-! ## Occupancy -/

theorem mem_occMark {occ : List Nat} {a c : Nat} : c ∈ occMark occ a ↔ c = a ∨ c ∈ occ := by
  induction occ with
  | nil => simp [occMark]
  | cons d ds ih =>
    simp only [occMark]
    split_ifs with below same
    · simp
    · simp [same]
    · simp [ih, or_left_comm]

/-- Marking keeps the occupied addresses rising. -/
theorem occMark_pairwise {occ : List Nat} (a : Nat) (rising : occ.Pairwise (· < ·)) :
    (occMark occ a).Pairwise (· < ·) := by
  induction occ with
  | nil => simp [occMark]
  | cons d ds ih =>
    obtain ⟨head, tail⟩ := List.pairwise_cons.mp rising
    simp only [occMark]
    split_ifs with below same
    · refine List.pairwise_cons.mpr ⟨fun c hc => ?_, rising⟩
      rcases List.mem_cons.mp hc with rfl | hc
      · exact below
      · exact below.trans (head c hc)
    · exact rising
    · refine List.pairwise_cons.mpr ⟨fun c hc => ?_, ih tail⟩
      rcases mem_occMark.mp hc with rfl | hc
      · omega
      · exact head c hc

theorem mem_occMarkRange {occ : List Nat} {b n c : Nat} :
    c ∈ occMarkRange occ b n ↔ (b ≤ c ∧ c < b + n) ∨ c ∈ occ := by
  induction n generalizing occ b with
  | zero =>
    simp only [occMarkRange, Nat.add_zero]
    exact ⟨.inr, fun h => h.resolve_left (by omega)⟩
  | succ n ih =>
    rw [occMarkRange, ih, mem_occMark, ← or_assoc]
    exact or_congr_left (by omega)

theorem occMarkRange_pairwise {occ : List Nat} (b n : Nat) (rising : occ.Pairwise (· < ·)) :
    (occMarkRange occ b n).Pairwise (· < ·) := by
  induction n generalizing occ b with
  | zero => exact rising
  | succ n ih => exact ih _ (occMark_pairwise b rising)

/-! ## The allocator's search -/

theorem runFree_iff {occ : List Nat} {b len : Nat} : runFree occ b len = true ↔ ∀ i < len, b + i ∉ occ := by
  simp [runFree]

/-- The search finds the lowest candidate with a free run. -/
theorem firstFit_eq_some {occ : List Nat} {len fuel b c : Nat} (found : firstFit occ len fuel b = some c) :
    b ≤ c ∧ c < b + fuel ∧ runFree occ c len = true ∧ ∀ d, b ≤ d → d < c → runFree occ d len = false := by
  induction fuel generalizing b with
  | zero => cases found
  | succ fuel ih =>
    simp only [firstFit] at found
    split_ifs at found with free
    · cases found
      exact ⟨le_rfl, by omega, free, fun d h1 h2 => by omega⟩
    · obtain ⟨h1, h2, h3, h4⟩ := ih found
      refine ⟨by omega, by omega, h3, fun d hd hdc => ?_⟩
      rcases Nat.eq_or_lt_of_le hd with rfl | hd
      · simpa using free
      · exact h4 d hd hdc

/-- The search fails only when no candidate has a free run. -/
theorem firstFit_eq_none {occ : List Nat} {len fuel b : Nat} (failed : firstFit occ len fuel b = none) :
    ∀ d, b ≤ d → d < b + fuel → runFree occ d len = false := by
  induction fuel generalizing b with
  | zero => intro d h1 h2; omega
  | succ fuel ih =>
    simp only [firstFit] at failed
    split_ifs at failed with free
    intro d h1 h2
    rcases Nat.eq_or_lt_of_le h1 with rfl | h1
    · simpa using free
    · exact ih failed d h1 (by omega)

/-- Everything an allocation that succeeds does. -/
theorem allocate_eq_some {s t : State} {len b : Nat} (done : allocate s len = some (b, t)) :
    b + len ≤ s.physSize ∧ (∀ i < len, b + i ∉ s.occ) ∧ (∀ c < b, ∃ i < len, c + i ∈ s.occ) ∧
      t = { s with occ := occMarkRange s.occ b len } := by
  unfold allocate at done
  split_ifs at done with fits
  rcases found : firstFit s.occ len (s.physSize - len + 1) 0 with _ | c
  · rw [found] at done
    cases done
  · rw [found] at done
    cases done
    obtain ⟨-, below, free, first⟩ := firstFit_eq_some found
    refine ⟨by omega, runFree_iff.mp free, fun d hd => ?_, rfl⟩
    have taken := first d (Nat.zero_le d) hd
    by_contra none
    push Not at none
    simp [runFree_iff.mpr none] at taken

/-! ## The loader -/

/-- Everything loading one segment does. -/
theorem loadSegment_eq_some {image : List Byte} {pid : Nat} {s t : State} {h : SegmentHeader}
    (done : loadSegment image pid s h = some t) :
    ∃ pb, allocate s h.length.toNat = some (pb, { s with occ := occMarkRange s.occ pb h.length.toNat }) ∧
      t = { s with
        occ := occMarkRange s.occ pb h.length.toNat
        mem := s.mem.writeBytes pb (payload image h)
        tt := s.tt ++ [{ pid := pid, logicalBase := h.target.toNat, length := h.length.toNat, physicalBase := pb }] } := by
  unfold loadSegment at done
  rcases ha : allocate s h.length.toNat with _ | ⟨pb, u⟩
  · rw [ha] at done
    cases done
  · rw [ha] at done
    cases done
    obtain ⟨-, -, -, rfl⟩ := allocate_eq_some ha
    exact ⟨pb, rfl, rfl⟩

/-- A payload is never longer than its header says. -/
theorem payload_length_le (image : List Byte) (h : SegmentHeader) : (payload image h).length ≤ h.length.toNat := by
  simp [payload]

end Sys2Proof.Machine
end

