-- ==== Sys2Proof/Laws/Decode.lean ====
section
/-! SUPPORT. The opcode map and the decoder. -/

namespace Sys2Proof

@[simp] theorem Opcode.ofByte?_toByte (o : Opcode) : Opcode.ofByte? o.toByte = some o := by
  cases o <;> rfl

/-- A byte selects an opcode exactly when it is that opcode's byte. -/
theorem Opcode.ofByte?_eq_some {b : Byte} {o : Opcode} : Opcode.ofByte? b = some o ↔ b = o.toByte := by
  constructor
  · intro h
    unfold Opcode.ofByte? at h
    split_ifs at h with h1 h2 h3 h4 h5 h6 <;> cases h <;> assumption
  · rintro rfl
    exact Opcode.ofByte?_toByte o

/-- The first bytes of an instruction are read from the first bytes of its encoding. -/
theorem encode_cons (i : Instr) : ∃ operands, encode i = i.opcode.toByte :: operands ∧ operands.length = i.opcode.operandCount := by
  cases i <;> exact ⟨_, rfl, rfl⟩

@[simp] theorem encode_length (i : Instr) : (encode i).length = i.length := by cases i <;> rfl

/-- What the decoder does with a supply that yields the bytes of an instruction's encoding. -/
theorem decodeWith_encode {ε : Type} (bad : Byte → ε) (byteAt : Nat → Except ε Byte) (i : Instr)
    (supply : ∀ k b, (encode i)[k]? = some b → byteAt k = .ok b) : decodeWith bad byteAt = .ok i := by
  cases i
  case halt =>
    have h0 := supply 0 _ rfl
    simp only [decodeWith, h0]
    rfl
  case beq reg1 reg2 addr =>
    have h0 := supply 0 _ rfl
    have h1 := supply 1 _ rfl
    have h2 := supply 2 _ rfl
    have h3 := supply 3 _ rfl
    simp only [decodeWith, h0, h1, h2, h3]
    rfl
  all_goals
    have h0 := supply 0 _ rfl
    have h1 := supply 1 _ rfl
    have h2 := supply 2 _ rfl
    simp only [decodeWith, h0, h1, h2]
    rfl

/-- What the decoder has read when it answers an instruction: exactly the bytes of its encoding. -/
theorem decodeWith_ok {ε : Type} {bad : Byte → ε} {byteAt : Nat → Except ε Byte} {i : Instr}
    (decoded : decodeWith bad byteAt = .ok i) : ∀ k b, (encode i)[k]? = some b → byteAt k = .ok b := by
  unfold decodeWith at decoded
  rcases h0 : byteAt 0 with e | op
  · rw [h0] at decoded
    cases decoded
  · rw [h0] at decoded
    rcases ho : Opcode.ofByte? op with _ | o
    · simp only [bind, Except.bind, ho] at decoded
      cases decoded
    · have hop := Opcode.ofByte?_eq_some.mp ho
      subst hop
      cases o
      case halt =>
        cases decoded
        rintro (_ | k) b hb <;> simp [encode] at hb ⊢
        exact hb ▸ h0
      case beq =>
        rcases h1 : byteAt 1 with e | b1
        · simp only [bind, Except.bind, h1] at decoded; cases decoded
        rcases h2 : byteAt 2 with e | b2
        · simp only [bind, Except.bind, h1, h2] at decoded; cases decoded
        rcases h3 : byteAt 3 with e | b3
        · simp only [bind, Except.bind, h1, h2, h3] at decoded; cases decoded
        simp only [bind, Except.bind, h1, h2, h3] at decoded
        cases decoded
        rintro (_ | _ | _ | _ | k) b hb <;> simp [encode] at hb <;> subst hb <;> assumption
      all_goals
        rcases h1 : byteAt 1 with e | b1
        · simp only [bind, Except.bind, h1] at decoded; cases decoded
        rcases h2 : byteAt 2 with e | b2
        · simp only [bind, Except.bind, h1, h2] at decoded; cases decoded
        simp only [bind, Except.bind, h1, h2] at decoded
        cases decoded
        rintro (_ | _ | _ | k) b hb <;> simp [encode] at hb <;> subst hb <;> assumption

end Sys2Proof
end

