-- ==== Sys2Proof/Laws/Step.lean ====
section
/-! SUPPORT. The step function by the two values of the halt flag, its fetch, and runs of several steps. -/

namespace Sys2Proof.Machine

theorem step_halted {s : State} (halted : s.haltFlag = true) : step s = .next s := by
  unfold step
  rw [halted]

theorem step_running {s : State} (running : s.haltFlag = false) :
    step s = match fetchInstr s with
      | .ok i => exec i s
      | .error e => .next (takeFault s e) := by
  unfold step
  split
  · simp_all
  · rfl

/-- A fetch reads byte `k` of an instruction at PC plus `k`. -/
theorem fetchByte_eq (s : State) (k : Nat) : fetchByte s k = memReadByte s (s.pc + BitVec.ofNat 16 k) := rfl

/-- An instruction is fetched where the bytes of its encoding are read, one by one, from PC on. -/
theorem fetchInstr_of_bytes {s : State} {i : Instr}
    (bytes : ∀ k b, (encode i)[k]? = some b → memReadByte s (s.pc + BitVec.ofNat 16 k) = .ok b) :
    fetchInstr s = .ok i :=
  decodeWith_encode _ _ i bytes

/-- Where an instruction was fetched, the bytes of its encoding were read. -/
theorem fetchInstr_ok {s : State} {i : Instr} (fetched : fetchInstr s = .ok i) :
    ∀ k b, (encode i)[k]? = some b → memReadByte s (s.pc + BitVec.ofNat 16 k) = .ok b :=
  decodeWith_ok fetched

/-- A fetch looks at the current process, the table, PC, memory and `N`, and at nothing else. -/
theorem fetchInstr_congr {s u : State} (bytes : ∀ la, memReadByte u la = memReadByte s la) (pc : u.pc = s.pc) :
    fetchInstr u = fetchInstr s := by
  have : fetchByte u = fetchByte s := funext fun k => by rw [fetchByte_eq, fetchByte_eq, bytes, pc]
  rw [fetchInstr, fetchInstr, this]

theorem Core_run_succ (M : Host.Core) (k : Nat) (s t : M.State) (stepped : M.step s = .next t) :
    M.run (k + 1) s = M.run k t := by
  have : M.run (k + 1) s = match M.step s with
    | .next u => M.run k u
    | .fault r => .fault r
    | .refused r => .refused r := rfl
  rw [this, stepped]

/-- A run of one step more, after a step that answers a next state. -/
theorem core_run_succ {k : Nat} {s t : State} (stepped : step s = .next t) :
    Host.Core.run Sys2Proof.core (k + 1) s = Host.Core.run Sys2Proof.core k t :=
  Core_run_succ Sys2Proof.core k s t stepped

end Sys2Proof.Machine
end

