-- ==== Sys2Proof/Laws/Exec.lean ====
section
/-! SUPPORT. For each meaning, everything it can do when it answers a next state: it completes, or it takes one of the
faults the spec gives it. -/

namespace Sys2Proof.Machine

/-- The faults LOAD_WORD and STORE_WORD can take, with what must hold for each (spec/60_exceptions.md R139). -/
def LoadStoreFault (s : State) (reg addr : Byte) (e : Exc) : Prop :=
  (2 < reg.toNat ∧ e = .invalidRegister reg) ∨
  (reg.toNat ≤ 2 ∧ translateAddr s.tt s.curPid (operandAddr addr) = .error e) ∨
  (reg.toNat ≤ 2 ∧ ∃ pa, translateAddr s.tt s.curPid (operandAddr addr) = .ok pa ∧
    (s.physSize ≤ pa ∧ e = .physicalRangeFault pa ∨ s.physSize = pa + 1 ∧ e = .physicalRangeFault (pa + 1)))

/-- The faults ADD, SUB and BEQ can take (spec/30_encoding.md R66). -/
def RegisterPairFault (reg1 reg2 : Byte) (e : Exc) : Prop :=
  (2 < reg1.toNat ∧ e = .invalidRegister reg1) ∨
  (reg1.toNat ≤ 2 ∧ 2 < reg2.toNat ∧ e = .invalidRegister reg2)

theorem toNat_toByte_le (r : Reg) : r.toByte.toNat ≤ 2 := registerByte_iff.mpr ⟨r, rfl⟩

theorem execLoadWord_cases {s t : State} {reg addr : Byte} (done : execLoadWord reg addr s = .next t) :
    (∃ r pa, reg = r.toByte ∧ translateAddr s.tt s.curPid (operandAddr addr) = .ok pa ∧ pa + 1 < s.physSize ∧
      t = ((s.afterOperands 2).writeReg r (wordOfBytes (s.mem.read pa) (s.mem.read (pa + 1)))).advancePc 1) ∨
    ∃ e, LoadStoreFault s reg addr e ∧ t = takeFault s e := by
  rcases completeCycle_next_iff.mp done with ⟨u, h, rfl⟩ | ⟨e, h, rfl⟩
  · left
    simp only [attempt_bind_ok_iff, operandReg_ok_iff, memReadWord_ok_iff] at h
    obtain ⟨r, rfl, _, ⟨pa, placed, inside, rfl⟩, ⟨⟩⟩ := h
    exact ⟨r, pa, rfl, placed, inside, rfl⟩
  · right
    refine ⟨e, ?_, rfl⟩
    simp only [attempt_bind_error_iff, operandReg_error_iff, operandReg_ok_iff, memReadWord_error_iff] at h
    rcases h with bad | ⟨r, rfl, (unmapped | outside) | ⟨_, _, ⟨⟩⟩⟩
    · exact .inl bad
    · exact .inr (.inl ⟨toNat_toByte_le r, unmapped⟩)
    · exact .inr (.inr ⟨toNat_toByte_le r, outside⟩)

theorem execStoreWord_cases {s t : State} {reg addr : Byte} (done : execStoreWord reg addr s = .next t) :
    (∃ r pa, reg = r.toByte ∧ translateAddr s.tt s.curPid (operandAddr addr) = .ok pa ∧ pa + 1 < s.physSize ∧
      t = ({ s.afterOperands 2 with
        mem := (s.mem.write pa (lowByte ((s.afterOperands 2).readReg r))).write (pa + 1)
          (highByte ((s.afterOperands 2).readReg r)) } : State).advancePc 1) ∨
    ∃ e, LoadStoreFault s reg addr e ∧ t = takeFault s e := by
  rcases completeCycle_next_iff.mp done with ⟨u, h, rfl⟩ | ⟨e, h, rfl⟩
  · left
    simp only [attempt_bind_ok_iff, operandReg_ok_iff, memWriteWord_ok_iff] at h
    obtain ⟨r, rfl, pa, placed, inside, rfl⟩ := h
    exact ⟨r, pa, rfl, placed, inside, rfl⟩
  · right
    refine ⟨e, ?_, rfl⟩
    simp only [attempt_bind_error_iff, operandReg_error_iff, operandReg_ok_iff, memWriteWord_error_iff] at h
    rcases h with bad | ⟨r, rfl, unmapped | outside⟩
    · exact .inl bad
    · exact .inr (.inl ⟨toNat_toByte_le r, unmapped⟩)
    · exact .inr (.inr ⟨toNat_toByte_le r, outside⟩)

/-- What ADD and SUB share. -/
theorem registerOperation_cases {s t : State} {f : Word → Word → Word} {reg1 reg2 : Byte}
    (done : completeCycle s (registerOperation f reg1 reg2 s) = .next t) :
    (∃ d r, reg1 = d.toByte ∧ reg2 = r.toByte ∧
      t = ((s.afterOperands 2).writeReg d
        (f ((s.afterOperands 2).readReg d) ((s.afterOperands 2).readReg r))).advancePc 1) ∨
    ∃ e, RegisterPairFault reg1 reg2 e ∧ t = takeFault s e := by
  rcases completeCycle_next_iff.mp done with ⟨u, h, rfl⟩ | ⟨e, h, rfl⟩
  · left
    simp only [registerOperation, attempt_bind_ok_iff, operandReg_ok_iff] at h
    obtain ⟨d, rfl, r, rfl, ⟨⟩⟩ := h
    exact ⟨d, r, rfl, rfl, rfl⟩
  · right
    refine ⟨e, ?_, rfl⟩
    simp only [registerOperation, attempt_bind_error_iff, operandReg_error_iff, operandReg_ok_iff] at h
    rcases h with bad | ⟨d, rfl, bad | ⟨_, _, ⟨⟩⟩⟩
    · exact .inl bad
    · exact .inr ⟨toNat_toByte_le d, bad⟩

theorem execBeq_cases {s t : State} {reg1 reg2 addr : Byte} (done : execBeq reg1 reg2 addr s = .next t) :
    (∃ a b, reg1 = a.toByte ∧ reg2 = b.toByte ∧
      t = (if (s.afterOperands 3).readReg a = (s.afterOperands 3).readReg b
        then (s.afterOperands 3).writeReg .pc (operandAddr addr) else s.afterOperands 3).advancePc 1) ∨
    ∃ e, RegisterPairFault reg1 reg2 e ∧ t = takeFault s e := by
  rcases completeCycle_next_iff.mp done with ⟨u, h, rfl⟩ | ⟨e, h, rfl⟩
  · left
    simp only [attempt_bind_ok_iff, operandReg_ok_iff, equalWords, beq_iff_eq] at h
    obtain ⟨a, rfl, b, rfl, h⟩ := h
    refine ⟨a, b, rfl, rfl, ?_⟩
    split_ifs at h ⊢ <;> cases h <;> rfl
  · right
    refine ⟨e, ?_, rfl⟩
    simp only [attempt_bind_error_iff, operandReg_error_iff, operandReg_ok_iff] at h
    rcases h with bad | ⟨a, rfl, bad | ⟨b, rfl, h⟩⟩
    · exact .inl bad
    · exact .inr ⟨toNat_toByte_le a, bad⟩
    · split_ifs at h

theorem execHalt_cases {s t : State} (done : execHalt s = .next t) : t = s.stopCurrent.advancePc 1 := by
  cases done
  rfl

end Sys2Proof.Machine
end

