-- ==== Sys2Proof/Laws/PerInstr.lean ====
section
/-! SUPPORT. What holds of every instruction as syntax, one lemma per constructor. -/

namespace Sys2Proof

/-- An instruction is encoded in 1, 3 or 4 bytes, as many as its opcode alone says, and the first of them is its
opcode byte (spec/30_encoding.md R60, R62, R63). -/
def Laws.Encoding.Statement (i : Instr) : Prop :=
  (encode i).length = i.opcode.operandCount + 1 ∧ (encode i).head? = some i.opcode.toByte ∧
    (i.length = 1 ∨ i.length = 3 ∨ i.length = 4)

theorem Laws.Encoding.loadWord (reg addr : Byte) : Laws.Encoding.Statement (.loadWord reg addr) :=
  ⟨rfl, rfl, .inr (.inl rfl)⟩

theorem Laws.Encoding.storeWord (reg addr : Byte) : Laws.Encoding.Statement (.storeWord reg addr) :=
  ⟨rfl, rfl, .inr (.inl rfl)⟩

theorem Laws.Encoding.add (reg1 reg2 : Byte) : Laws.Encoding.Statement (.add reg1 reg2) :=
  ⟨rfl, rfl, .inr (.inl rfl)⟩

theorem Laws.Encoding.sub (reg1 reg2 : Byte) : Laws.Encoding.Statement (.sub reg1 reg2) :=
  ⟨rfl, rfl, .inr (.inl rfl)⟩

theorem Laws.Encoding.beq (reg1 reg2 addr : Byte) : Laws.Encoding.Statement (.beq reg1 reg2 addr) :=
  ⟨rfl, rfl, .inr (.inr rfl)⟩

theorem Laws.Encoding.halt : Laws.Encoding.Statement .halt := ⟨rfl, rfl, .inl rfl⟩

end Sys2Proof
end

