-- ==== Sys2Proof/Machine/Assembly.lean ====
section
/-! DEFINITION. The spec's way of writing an instruction (spec/30_encoding.md R70, decision D26): the mnemonic, then the
operands in encoding order. It is for people, and the machine does not use it. -/

namespace Sys2Proof.Machine

/-- The name of a register. -/
def Reg.name : Reg → String
  | .pc => "PC"
  | .r1 => "R1"
  | .r2 => "R2"

/-- A hexadecimal digit. -/
def hexDigit (n : Nat) : Char := (Nat.digitChar n).toUpper

/-- An address: `0x` and two hexadecimal digits. -/
def addrText (b : Byte) : List Char := ['0', 'x', hexDigit (b.toNat / 16), hexDigit (b.toNat % 16)]

/-- A mnemonic with its operands, separated by commas. -/
def assemble (mnemonic : String) : List (List Char) → List Char
  | [] => mnemonic.toList
  | o :: os => mnemonic.toList ++ [' '] ++ o ++ os.flatMap (fun p => [',', ' '] ++ p)

/-- The register that an operand byte names, as text; none for a byte that names no register. -/
def regText (b : Byte) : Option (List Char) :=
  match operandReg b with
  | .ok r => some r.name.toList
  | .error _ => none

/-- The text of an instruction whose register bytes name registers. The number in a BEQ is its operand byte, one less
than the address that a taken branch continues at. -/
def assembly : Instr → Option (List Char)
  | .loadWord reg addr => do some (assemble "LOAD_WORD" [← regText reg, addrText addr])
  | .storeWord reg addr => do some (assemble "STORE_WORD" [← regText reg, addrText addr])
  | .add reg1 reg2 => do some (assemble "ADD" [← regText reg1, ← regText reg2])
  | .sub reg1 reg2 => do some (assemble "SUB" [← regText reg1, ← regText reg2])
  | .beq reg1 reg2 addr => do some (assemble "BEQ" [← regText reg1, ← regText reg2, addrText addr])
  | .halt => some (assemble "HALT" [])

end Sys2Proof.Machine
end

