-- ==== Sys2Proof/Tests/Slice0.lean ====
section
/-! SUPPORT. Tests: ill-formed instructions, words written out from the spec's encodings, single steps from the vectors
of spec/95_test_vectors.md (each named by its id there), and a witness for the hypotheses of each statement. -/

namespace Sys2Proof.Tests

open Sys2Proof.Machine

/-! ## Helpers -/

/-- A machine with `n` cells, all zero but for `bytes` from `start` up, one running process 1 with the table `tt`, and
the registers `x`. -/
def machine (n : Nat) (tt : List TTEntry) (start : Nat) (bytes : List Byte) (x : Word × Word × Word) : State :=
  { State.powerOn n with
    pc := x.1, r1 := x.2.1, r2 := x.2.2, haltFlag := false, curPid := 1, nextPid := 2
    procs := [{ id := 1, state := .running }]
    tt := tt
    mem := (Memory.writeBytes [] 0 (List.replicate n 0)).writeBytes start bytes }

/-- "flat `N = 16`" of spec/95_test_vectors.md. -/
def flat16 (start : Nat) (bytes : List Byte) (x : Word × Word × Word) : State :=
  machine 16 [⟨1, 0, 16, 0⟩] start bytes x

/-- The flat machine with a second entry that runs over the end of memory: logical 0x20 to 0x23 are cells 14 to 17. -/
def edge16 (start : Nat) (bytes : List Byte) (x : Word × Word × Word) : State :=
  machine 16 [⟨1, 0, 16, 0⟩, ⟨1, 0x20, 4, 14⟩] start bytes x

/-- Sixteen cells of which the last two are at logical 0 and 1, and logical 2 is cell 16, outside memory. -/
def tail16 (bytes : List Byte) : State := machine 16 [⟨1, 0, 4, 14⟩] 14 bytes (0, 0, 0)

/-- The next state that is answered. -/
def nextOf (o : Host.Outcome State Fault Refusal) : Option State :=
  match o with
  | .next t => some t
  | _ => none

/-- A part of the state after one step. -/
def after {α : Type} (s : State) (part : State → α) : Option α :=
  match step s with
  | .next t => some (part t)
  | _ => none

/-- `x = (PC, R1, R2)`. -/
def regs (s : State) : Word × Word × Word := (s.pc, s.r1, s.r2)

/-- The registers, and the fault latch with the halt flag. -/
structure Seen where
  x : Word × Word × Word
  faultCause : FaultCause
  faultInfo : Nat
  haltFlag : Bool
  deriving DecidableEq, Repr

/-- What `Seen` shows of a state. -/
def regsAndLatch (s : State) : Seen := ⟨regs s, s.faultCause, s.faultInfo, s.haltFlag⟩

/-- The bytes of `n` cells from `a` up. -/
def cells (a n : Nat) (s : State) : List Byte := (List.range n).map (fun k => s.mem.read (a + k))

/-- The byte fetched at PC plus `k`. -/
def fetched (s : State) (k : Nat) : Except Exc Byte := memReadByte s (s.pc + BitVec.ofNat 16 k)

/-! ## Well-formedness: one ill-formed term for each check -/

theorem test_loadWord_register_checked : (Instr.loadWord 3 0).wellFormed = false := by decide
theorem test_storeWord_register_checked : (Instr.storeWord 255 0).wellFormed = false := by decide
theorem test_add_first_register_checked : (Instr.add 3 0).wellFormed = false := by decide
theorem test_add_second_register_checked : (Instr.add 0 3).wellFormed = false := by decide
theorem test_sub_first_register_checked : (Instr.sub 0x80 1).wellFormed = false := by decide
theorem test_sub_second_register_checked : (Instr.sub 1 0x82).wellFormed = false := by decide
theorem test_beq_first_register_checked : (Instr.beq 3 2 0).wellFormed = false := by decide
theorem test_beq_second_register_checked : (Instr.beq 2 3 0).wellFormed = false := by decide

/-- The highest register and any `addr` byte are well formed (spec/30_encoding.md R66, R68). -/
theorem test_wellFormed_accepts :
    (Instr.loadWord 2 0xFF).wellFormed ∧ (Instr.storeWord 0 0).wellFormed ∧ (Instr.add 2 0).wellFormed ∧
      (Instr.sub 0 2).wellFormed ∧ (Instr.beq 2 2 0xFF).wellFormed ∧ Instr.halt.wellFormed := by decide

/-! ## Decoding: words written out from spec/30_encoding.md R60, R63 -/

/-- P1 at 00: `01 01 10` is LOAD_WORD R1, 0x10. -/
theorem test_decode_loadWord : decode [0x01, 0x01, 0x10] = .ok (.loadWord 1 0x10, []) := by decide
/-- P1 at 09: `02 01 0E` is STORE_WORD R1, 0x0E; the byte after it is left. -/
theorem test_decode_storeWord : decode [0x02, 0x01, 0x0E, 0xFF] = .ok (.storeWord 1 0x0E, [0xFF]) := by decide
/-- P1 at 06: `03 01 02` is ADD R1, R2. -/
theorem test_decode_add : decode [0x03, 0x01, 0x02] = .ok (.add 1 2, []) := by decide
/-- P5 at 10: `04 01 02` is SUB R1, R2. -/
theorem test_decode_sub : decode [0x04, 0x01, 0x02] = .ok (.sub 1 2, []) := by decide
/-- P3 at 06: `05 01 02 0A` is BEQ R1, R2, 0x0A. -/
theorem test_decode_beq : decode [0x05, 0x01, 0x02, 0x0A] = .ok (.beq 1 2 0x0A, []) := by decide
/-- P3 at 0A: `FF` is HALT, one byte long. -/
theorem test_decode_halt : decode [0xFF, 0x01] = .ok (.halt, [0x01]) := by decide
/-- A byte that names no register is decoded: the instruction raises the fault (spec/30_encoding.md R62, R66). -/
theorem test_decode_keeps_bad_register : decode [0x03, 0x09, 0x07] = .ok (.add 9 7, []) := by decide
/-- An illegal opcode is rejected whatever follows, or when nothing does (spec/30_encoding.md R64). -/
theorem test_decode_illegal :
    decode [0x00, 0x01, 0x02] = .error (.invalidOpcode 0) ∧ decode [0x06] = .error (.invalidOpcode 6) ∧
      decode [0xFE, 1, 1, 1] = .error (.invalidOpcode 0xFE) := by decide
theorem test_decode_truncated : decode [] = .error .truncated ∧ decode [0x05, 0x01, 0x02] = .error .truncated := by decide
/-- The opcode table's numbering: bits 7..0 are the opcode, 15..8 `reg1`, 23..16 `reg2`, 31..24 `addr`. -/
theorem test_table_word :
    decodeTableWord 24 0x100201 = some (.loadWord 2 0x10) ∧ decodeTableWord 32 0x0A020105 = some (.beq 1 2 0x0A) ∧
      decodeTableWord 8 0xFF = some .halt ∧ decodeTableWord 8 0x03 = some (.add 0 0) ∧
      decodeTableWord 24 0x020107 = none := by decide

/-! ## Single steps (spec/95_test_vectors.md) -/

/-- LW2: an odd address, the low byte first. -/
theorem test_loadWord_LW2 :
    after (flat16 0 [1, 2, 9, 0, 0, 0, 0, 0, 0x34, 0x12, 0xAB, 0] (0, 0, 0)) regs = some (3, 0, 0xAB12) := by decide
/-- LW3: a load into PC continues one past the loaded word. -/
theorem test_loadWord_LW3 : after (flat16 0 [1, 0, 8, 0, 0, 0, 0, 0, 5] (0, 0, 0)) regs = some (6, 0, 0) := by decide
/-- SW2: a store of PC stores the address of the instruction's last byte. -/
theorem test_storeWord_SW2 :
    after (flat16 0 [2, 0, 8] (0, 0xBEEF, 0)) (fun t => (regs t, cells 7 4 t)) =
      some ((3, 0xBEEF, 0), [0, 2, 0, 0]) := by decide
/-- SW4: a store over the instruction's own bytes. -/
theorem test_storeWord_SW4 :
    after (flat16 0 [2, 1, 0] (0, 0xBEEF, 0)) (fun t => (regs t, cells 0 4 t)) =
      some ((3, 0xBEEF, 0), [0xEF, 0xBE, 0, 0]) := by decide
/-- A2: the sum of 0xFFFF and 0xFFFF. -/
theorem test_add_A2 : after (flat16 0 [3, 1, 2] (0, 0xFFFF, 0xFFFF)) regs = some (3, 0xFFFE, 0xFFFF) := by decide
/-- A9: PC is both sources and the destination. -/
theorem test_add_A9 : after (flat16 2 [3, 0, 0] (2, 0, 0)) regs = some (9, 0, 0) := by decide
/-- S2: the operands in the spec's order. -/
theorem test_sub_S2 : after (flat16 0 [4, 1, 2] (0, 5, 7)) regs = some (3, 0xFFFE, 7) := by decide
/-- S7: a difference written to PC wraps in the final increment. -/
theorem test_sub_S7 : after (flat16 6 [4, 0, 2] (6, 0, 9)) regs = some (0, 0, 9) := by decide
/-- B1 and B2: taken continues at `addr + 1`, not taken at `p + 4`. -/
theorem test_beq_B1_B2 :
    after (flat16 6 [5, 1, 2, 0x0A] (6, 7, 7)) regs = some (0x0B, 7, 7) ∧
      after (flat16 6 [5, 1, 2, 0x0A] (6, 7, 8)) regs = some (0x0A, 7, 8) := by decide
/-- B5 and B6: PC reads as `p + 3`. -/
theorem test_beq_B5_B6 :
    after (flat16 6 [5, 0, 1, 2] (6, 9, 8)) regs = some (3, 9, 8) ∧
      after (flat16 6 [5, 0, 1, 2] (6, 6, 8)) regs = some (0x0A, 6, 8) := by decide
/-- H1: HALT advances PC, and the process is halted without a fault. -/
theorem test_halt_H1 :
    after (flat16 12 [0xFF] (12, 0x14AD, 12)) (fun t => (regsAndLatch t, t.procs)) =
      some (⟨(13, 0x14AD, 12), .none, 0, true⟩, [⟨1, .halted⟩]) := by decide
/-- P4's last step: HALT halts the current process's record alone. -/
theorem test_halt_other_process :
    after { flat16 0 [0xFF] (0, 0, 0) with procs := [⟨1, .running⟩, ⟨2, .running⟩] } (fun t => t.procs) =
      some [⟨1, .halted⟩, ⟨2, .running⟩] := by decide

/-! ## Faults -/

/-- F1 to F3: illegal opcodes. -/
theorem test_fault_opcode :
    after (flat16 0 [0] (0, 1, 2)) regsAndLatch = some ⟨(0, 1, 2), .invalidOpcode, 0, true⟩ ∧
      after (flat16 0 [6] (0, 1, 2)) regsAndLatch = some ⟨(0, 1, 2), .invalidOpcode, 6, true⟩ ∧
      after (flat16 0 [0xFE] (0, 1, 2)) regsAndLatch = some ⟨(0, 1, 2), .invalidOpcode, 0xFE, true⟩ := by decide
/-- F5, B9, F7: fetches that do not translate, or fall outside memory; PC stays at the instruction. -/
theorem test_fault_fetch :
    after (flat16 0 [] (0xFFFF, 0, 0)) regsAndLatch = some ⟨(0xFFFF, 0, 0), .translationFault, 0xFFFF, true⟩ ∧
      after (flat16 13 [5, 1, 2] (13, 1, 1)) regsAndLatch = some ⟨(13, 1, 1), .translationFault, 16, true⟩ ∧
      after (machine 32 [⟨1, 0, 4, 30⟩] 30 [0xFF, 0xFF] (2, 0, 0)) regsAndLatch =
        some ⟨(2, 0, 0), .physicalRangeFault, 32, true⟩ := by decide
/-- LW4, LW5, LW7: the order of the checks. -/
theorem test_fault_loadWord :
    after (flat16 0 [1, 1, 15] (0, 0, 0)) regsAndLatch = some ⟨(0, 0, 0), .physicalRangeFault, 16, true⟩ ∧
      after (flat16 0 [1, 1, 16] (0, 0, 0)) regsAndLatch = some ⟨(0, 0, 0), .translationFault, 16, true⟩ ∧
      after (flat16 0 [1, 3, 16] (0, 0, 0)) regsAndLatch = some ⟨(0, 0, 0), .invalidRegister, 3, true⟩ := by decide
/-- SW3: a store whose second cell does not exist writes neither. -/
theorem test_fault_storeWord :
    after (flat16 0 [2, 1, 15] (0, 0xBEEF, 0)) (fun t => (regsAndLatch t, cells 15 1 t)) =
      some (⟨(0, 0xBEEF, 0), .physicalRangeFault, 16, true⟩, [0]) := by decide
/-- A11 and B8: the first bad register byte is the one reported. -/
theorem test_fault_register :
    after (flat16 0 [3, 9, 7] (0, 0, 0)) regsAndLatch = some ⟨(0, 0, 0), .invalidRegister, 9, true⟩ ∧
      after (flat16 6 [5, 1, 5, 5] (6, 1, 1)) regsAndLatch = some ⟨(6, 1, 1), .invalidRegister, 5, true⟩ := by decide

/-! ## Translation, the allocator and the loader -/

/-- `TTa` of section 2. -/
def ttA : List TTEntry := [⟨2, 0, 13, 5⟩, ⟨2, 0x40, 6, 18⟩]

/-- T2, T3, T4, T6, T7, T8. -/
theorem test_translate_bounds :
    translateAddr ttA 2 0x0C = .ok 17 ∧ translateAddr ttA 2 0x0D = .error (.translationFault 0x0D) ∧
      translateAddr ttA 2 0x3F = .error (.translationFault 0x3F) ∧ translateAddr ttA 2 0x45 = .ok 23 ∧
      translateAddr ttA 2 0x46 = .error (.translationFault 0x46) ∧
      translateAddr ttA 1 0 = .error (.translationFault 0) := by decide
/-- T10 to T14, T16. -/
theorem test_translate_overlap :
    translateAddr (ttA ++ [⟨2, 10, 5, 25⟩]) 2 9 = .ok 14 ∧
      translateAddr (ttA ++ [⟨2, 10, 5, 25⟩]) 2 10 = .error (.translationFault 10) ∧
      translateAddr (ttA ++ [⟨2, 10, 5, 25⟩]) 2 12 = .error (.translationFault 12) ∧
      translateAddr (ttA ++ [⟨2, 10, 5, 25⟩]) 2 13 = .ok 28 ∧
      translateAddr [⟨1, 4, 0, 0⟩] 1 4 = .error (.translationFault 4) := by decide

/-- The base that an allocation answers, and the cells then occupied. -/
def allocated (s : State) (len : Nat) : Option (Nat × List Nat) :=
  match allocate s len with
  | some (b, t) => some (b, t.occ)
  | none => none

/-- AL1, each call from the markers the calls before it leave. -/
theorem test_allocate_AL1 :
    allocated (State.powerOn 8) 3 = some (0, [0, 1, 2]) ∧
      allocated { State.powerOn 8 with occ := [0, 1, 2] } 0 = some (0, [0, 1, 2]) ∧
      allocated { State.powerOn 8 with occ := [0, 1, 2] } 5 = some (3, [0, 1, 2, 3, 4, 5, 6, 7]) ∧
      allocated { State.powerOn 8 with occ := [0, 1, 2, 3, 4, 5, 6, 7] } 1 = none ∧
      allocated (State.powerOn 8) 9 = none := by decide

/-- L6 to L8, L2: malformed images, and the one-byte image that is not. -/
theorem test_load_malformed :
    load (State.powerOn 8) [1, 0, 2, 0, 0xFF] = .malformedImage ∧
      load (State.powerOn 8) [1, 0, 1, 1, 0xFF] = .malformedImage ∧
      load (State.powerOn 8) [1, 0, 0, 1] = .malformedImage ∧ load (State.powerOn 8) [] = .malformedImage ∧
      load (State.powerOn 8) [0] = .loaded 1 (createProcess (State.powerOn 8)) := by decide
/-- L11: two headers share one payload byte; L9's image fills its payload to the end. -/
theorem test_load_L11 :
    load (State.powerOn 8) [2, 0x00, 1, 0, 0x10, 1, 0, 0xFF] = .loaded 1 { createProcess (State.powerOn 8) with
      tt := [⟨1, 0, 1, 0⟩, ⟨1, 0x10, 1, 1⟩], mem := [(0, 0xFF), (1, 0xFF)], occ := [0, 1] } := by decide
/-- The second header of L1's second image: `C0` is type 1, target 0x40. -/
theorem test_load_header_C0 : headerAt [2, 0x00, 13, 0, 0xC0, 6, 13] 1 = ⟨1, 0x40, 6, 13⟩ := by decide
/-- L12: out of memory at the second segment; the first stays. -/
theorem test_load_L12 :
    load (State.powerOn 8) [2, 0x00, 5, 0, 0x20, 4, 5, 1, 2, 3, 4, 5, 6, 7, 8, 9] =
      .outOfMemory { createProcess (State.powerOn 8) with
        tt := [⟨1, 0, 5, 0⟩], mem := [(0, 1), (1, 2), (2, 3), (3, 4), (4, 5)], occ := [0, 1, 2, 3, 4]
        abortedLoads := [1] } := by decide

/-! ## Witnesses: what meets the hypotheses of each statement, clause by clause -/

/-- The state of A12, whose instruction lies across the top of the address space. -/
def wrapped : State := machine 4 [⟨1, 0xFFFF, 1, 0⟩, ⟨1, 0, 2, 1⟩] 0 [3, 1, 2, 0xFF] (0xFFFF, 1, 2)

theorem test_witness_DecodedBytesAreTheEncoding : decode [0x05, 0xFF, 0, 0xFF, 7] = .ok (.beq 0xFF 0 0xFF, [7]) := by decide

theorem test_witness_StepRunsTheDecodedInstruction :
    wrapped.Running ∧ decode [3, 1, 2] = .ok (.add 1 2, []) ∧
      ∀ k b, k < (Instr.add 1 2).length → ([3, 1, 2] : List Byte)[k]? = some b →
        memReadByte wrapped (wrapped.pc + BitVec.ofNat 16 k) = .ok b := by
  refine ⟨by decide, by decide, fun k b below found => ?_⟩
  have bound : k < 3 := below
  interval_cases k <;> cases found <;> decide
/-- A12: the step that this statement speaks of. -/
theorem test_step_A12 : after wrapped regs = some (2, 3, 2) := by decide

theorem test_witness_FetchWordRunsTheInstruction : decodeTableWord 24 0xFF0002 = some (.storeWord 0 0xFF) := by decide
/-- `step` runs the placed instruction from reset. -/
theorem test_step_fetchWord : after (State.reset.withFetchWord 24 0x010103) regs = some (3, 0, 0) := by decide

theorem test_witness_HaltedMachineKeepsItsState : State.reset.haltFlag = true := by decide

theorem test_witness_OpcodeFetchFaults :
    (flat16 0 [] (16, 0, 0)).Running ∧
      translateAddr (flat16 0 [] (16, 0, 0)).tt 1 16 = .error (.translationFault 16) ∧
      translateAddr (edge16 0 [] (0x22, 0, 0)).tt 1 0x22 = .ok 16 ∧ (edge16 0 [] (0x22, 0, 0)).physSize ≤ 16 := by decide

theorem test_witness_IllegalOpcodeRaisesInvalidOpcode :
    (flat16 0 [6] (0, 0, 0)).Running ∧ fetched (flat16 0 [0] (0, 0, 0)) 0 = .ok 0 ∧
      fetched (flat16 0 [6] (0, 0, 0)) 0 = .ok 6 ∧ fetched (flat16 0 [0xFE] (0, 0, 0)) 0 = .ok 0xFE ∧
      fetched (flat16 0 [5] (0, 0, 0)) 0 = .ok 5 ∧ fetched (flat16 0 [0xFF] (0, 0, 0)) 0 = .ok 0xFF ∧
      (flat16 0 [0xFF] (0, 0, 0)).faultCause ≠ .invalidOpcode ∧
      after (flat16 0 [0xFF] (0, 0, 0)) (fun t => t.faultCause) = some .none := by decide

/-- `k = 1` and `k = 3` (the last operand of BEQ), each fault; the range fault stands one past the last cell. -/
theorem test_witness_OperandFetchFaults :
    (fetched (flat16 15 [1] (15, 0, 0)) 0 = .ok 1 ∧
      translateAddr [⟨1, 0, 16, 0⟩] 1 16 = .error (.translationFault 16)) ∧
      (fetched (flat16 13 [5, 1, 2] (13, 0, 0)) 0 = .ok 5 ∧ fetched (flat16 13 [5, 1, 2] (13, 0, 0)) 1 = .ok 1 ∧
        fetched (flat16 13 [5, 1, 2] (13, 0, 0)) 2 = .ok 2 ∧ Opcode.ofByte? 5 = some .beq ∧ Opcode.beq.operandCount = 3) ∧
      (fetched (tail16 [3, 1]) 0 = .ok 3 ∧ fetched (tail16 [3, 1]) 1 = .ok 1 ∧
        translateAddr (tail16 [3, 1]).tt 1 2 = .ok 16 ∧ (tail16 [3, 1]).physSize ≤ 16) ∧
      after (tail16 [3, 1]) regsAndLatch = some ⟨(0, 0, 0), .physicalRangeFault, 16, true⟩ := by decide

theorem test_witness_BadRegisterByteRaisesInvalidRegister :
    fetchInstr (flat16 0 [3, 3, 0xFF] (0, 0, 0)) = .ok (.add 3 0xFF) ∧
      (registerOperands (.add 3 0xFF)).find? (fun r => decide (2 < r.toNat)) = some 3 ∧
      (registerOperands (.beq 2 0xFF 0)).find? (fun r => decide (2 < r.toNat)) = some 0xFF ∧
      (flat16 0 [3, 3, 0xFF] (0, 0, 0)).faultCause ≠ .invalidRegister ∧
      after (flat16 0 [3, 3, 0xFF] (0, 0, 0)) regsAndLatch = some ⟨(0, 0, 0), .invalidRegister, 3, true⟩ := by decide

/-- The first clause of each of the six instruction rules: the opcode byte itself cannot be fetched. -/
theorem test_witness_opcode_fetch_clause :
    (flat16 0 [] (16, 0, 0)).Running ∧ fetched (flat16 0 [] (16, 0, 0)) 0 = .error (.translationFault 16) := by decide

/-- The clauses before execution, for LOAD_WORD: no byte 1, no byte 2, register byte 3, `addr` 16 unmapped. -/
theorem test_witness_LoadWordFollowsItsRule_early :
    fetched (flat16 15 [1] (15, 0, 0)) 1 = .error (.translationFault 16) ∧
      fetched (flat16 14 [1, 2] (14, 0, 0)) 2 = .error (.translationFault 16) ∧
      fetched (flat16 0 [1, 3, 0] (0, 0, 0)) 1 = .ok 3 ∧ fetched (flat16 0 [1, 2, 16] (0, 0, 0)) 1 = .ok Reg.r2.toByte ∧
      translateAddr (flat16 0 [1, 2, 16] (0, 0, 0)).tt 1 16 = .error (.translationFault 16) := by decide
/-- The clauses of execution, at cells 16 (none), 15 (the last) and 14 (the last word). -/
theorem test_witness_LoadWordFollowsItsRule_late :
    (edge16 0 [1, 1, 0x22] (0, 0, 0)).Running ∧ fetched (edge16 0 [1, 1, 0x22] (0, 0, 0)) 2 = .ok 0x22 ∧
      translateAddr (edge16 0 [] (0, 0, 0)).tt 1 0x22 = .ok 16 ∧ translateAddr (edge16 0 [] (0, 0, 0)).tt 1 0x21 = .ok 15 ∧
      translateAddr (edge16 0 [] (0, 0, 0)).tt 1 0x20 = .ok 14 ∧ (edge16 0 [] (0, 0, 0)).physSize = 16 := by decide

/-- The clauses before execution, for STORE_WORD. -/
theorem test_witness_StoreWordFollowsItsRule_early :
    fetched (flat16 15 [2] (15, 0, 0)) 1 = .error (.translationFault 16) ∧
      fetched (flat16 14 [2, 2] (14, 0, 0)) 2 = .error (.translationFault 16) ∧
      fetched (flat16 0 [2, 3, 0] (0, 0, 0)) 1 = .ok 3 ∧ fetched (flat16 0 [2, 0, 16] (0, 0, 0)) 1 = .ok Reg.pc.toByte ∧
      translateAddr (flat16 0 [2, 0, 16] (0, 0, 0)).tt 1 16 = .error (.translationFault 16) := by decide
/-- The clauses of execution: the outcomes at cells 16, 15 and 14. -/
theorem test_witness_StoreWordFollowsItsRule_late :
    after (edge16 0 [2, 1, 0x22] (0, 0x1234, 0)) regsAndLatch = some ⟨(0, 0x1234, 0), .physicalRangeFault, 16, true⟩ ∧
      after (edge16 0 [2, 1, 0x21] (0, 0x1234, 0)) regsAndLatch = some ⟨(0, 0x1234, 0), .physicalRangeFault, 16, true⟩ ∧
      after (edge16 0 [2, 1, 0x20] (0, 0x1234, 0)) (fun t => (regsAndLatch t, cells 13 3 t)) =
        some (⟨(3, 0x1234, 0), .none, 0, false⟩, [0, 0x34, 0x12]) := by decide

/-- ADD: no byte 1, no byte 2, a bad first register, a bad second register after the highest good first one, and a
pair of good ones. -/
theorem test_witness_AddFollowsItsRule :
    fetched (flat16 15 [3] (15, 0, 0)) 1 = .error (.translationFault 16) ∧
      fetched (flat16 14 [3, 2] (14, 0, 0)) 2 = .error (.translationFault 16) ∧
      fetched (flat16 0 [3, 3, 3] (0, 0, 0)) 1 = .ok 3 ∧
      (fetched (flat16 0 [3, 2, 3] (0, 0, 0)) 1 = .ok 2 ∧ fetched (flat16 0 [3, 2, 3] (0, 0, 0)) 2 = .ok 3) ∧
      (fetched (flat16 0 [3, 0, 2] (0, 0, 0)) 1 = .ok Reg.pc.toByte ∧
        fetched (flat16 0 [3, 0, 2] (0, 0, 0)) 2 = .ok Reg.r2.toByte) := by decide

/-- SUB: the same clauses. -/
theorem test_witness_SubFollowsItsRule :
    fetched (flat16 15 [4] (15, 0, 0)) 1 = .error (.translationFault 16) ∧
      fetched (flat16 14 [4, 2] (14, 0, 0)) 2 = .error (.translationFault 16) ∧
      fetched (flat16 0 [4, 3, 3] (0, 0, 0)) 1 = .ok 3 ∧
      (fetched (flat16 0 [4, 2, 3] (0, 0, 0)) 1 = .ok 2 ∧ fetched (flat16 0 [4, 2, 3] (0, 0, 0)) 2 = .ok 3) ∧
      (fetched (flat16 0 [4, 0, 2] (0, 0, 0)) 1 = .ok Reg.pc.toByte ∧
        fetched (flat16 0 [4, 0, 2] (0, 0, 0)) 2 = .ok Reg.r2.toByte) := by decide

/-- BEQ: the same clauses, the third operand byte missing, and both outcomes of the comparison. -/
theorem test_witness_BeqFollowsItsRule :
    fetched (flat16 15 [5] (15, 0, 0)) 1 = .error (.translationFault 16) ∧
      fetched (flat16 14 [5, 2] (14, 0, 0)) 2 = .error (.translationFault 16) ∧
      fetched (flat16 13 [5, 2, 2] (13, 0, 0)) 3 = .error (.translationFault 16) ∧
      (fetched (flat16 12 [5, 3, 3, 0xFF] (12, 0, 0)) 1 = .ok 3 ∧ fetched (flat16 12 [5, 3, 3, 0xFF] (12, 0, 0)) 3 = .ok 0xFF) ∧
      fetched (flat16 12 [5, 2, 3, 0xFF] (12, 0, 0)) 2 = .ok 3 ∧
      (flat16 0 [] (0, 3, 4)).sourceValue 3 .pc = (flat16 0 [] (0, 3, 4)).sourceValue 3 .r1 ∧
      (flat16 0 [] (0, 3, 4)).sourceValue 3 .pc ≠ (flat16 0 [] (0, 3, 4)).sourceValue 3 .r2 := by decide
/-- B3: a taken branch to 256, which is not mapped, so that the next cycle faults there. -/
theorem test_witness_BeqFollowsItsRule_target :
    fetched (flat16 6 [5, 1, 1, 0xFF] (6, 7, 8)) 3 = .ok 0xFF ∧
      after (flat16 6 [5, 1, 1, 0xFF] (6, 7, 8)) regs = some (0x100, 7, 8) ∧
      translateAddr (flat16 6 [5, 1, 1, 0xFF] (6, 7, 8)).tt 1 0x100 = .error (.translationFault 0x100) := by decide

theorem test_witness_HaltFollowsItsRule :
    (flat16 15 [0xFF] (15, 0, 0)).Running ∧ fetched (flat16 15 [0xFF] (15, 0, 0)) 0 = .ok 0xFF ∧
      15 < (flat16 15 [0xFF] (15, 0, 0)).physSize ∧
      ((nextOf (step (flat16 15 [0xFF] (15, 4, 5)))).bind (fun t => nextOf (start t 1))).map regs = some (0, 0, 0) := by
  decide

/-- The last word of memory: LOAD_WORD, STORE_WORD and the statements over their translation. -/
theorem test_witness_LoadWordCompletes :
    translateAddr (flat16 0 [] (0, 0, 0)).tt 1 14 = .ok 14 ∧ 14 + 1 < (flat16 0 [] (0, 0, 0)).physSize := by decide
theorem test_witness_StoreWordCompletes :
    translateAddr (edge16 0 [] (0, 0, 0)).tt 1 0x20 = .ok 14 ∧ 14 + 1 < (edge16 0 [] (0, 0, 0)).physSize := by decide

/-- Each clause: register byte 3, register byte 2 with an unmapped address, cell 16, cell 15. -/
theorem test_witness_LoadStoreTraps :
    2 < (3 : Byte).toNat ∧ (2 : Byte).toNat ≤ 2 ∧
      translateAddr (edge16 0 [] (0, 0, 0)).tt 1 16 = .error (.translationFault 16) ∧
      (translateAddr (edge16 0 [] (0, 0, 0)).tt 1 0x22 = .ok 16 ∧ (edge16 0 [] (0, 0, 0)).physSize ≤ 16) ∧
      (translateAddr (edge16 0 [] (0, 0, 0)).tt 1 0x21 = .ok 15 ∧ (edge16 0 [] (0, 0, 0)).physSize = 15 + 1) := by decide

theorem test_witness_LoadWordFrame :
    (nextOf (exec (.loadWord 2 8) (flat16 0 [] (0, 5, 6)))).map regs = some (3, 5, 0) ∧
      (nextOf (exec (.loadWord 3 8) (flat16 0 [] (0, 5, 6)))).map regsAndLatch =
        some ⟨(0, 5, 6), .invalidRegister, 3, true⟩ := by decide
theorem test_witness_StoreWordFrame :
    (nextOf (exec (.storeWord 2 14) (flat16 0 [] (0, 5, 6)))).map (cells 13 3) = some [0, 6, 0] ∧
      translateAddr ((flat16 0 [] (0, 5, 6)).afterOperands 2).tt 1 (operandAddr 14) = .ok 14 ∧
      translateAddr ((flat16 0 [] (0, 5, 6)).afterOperands 2).tt 1 (operandAddr 16) = .error (.translationFault 16) ∧
      ((nextOf (exec (.storeWord 2 16) (flat16 0 [] (0, 5, 6)))).map regsAndLatch =
        some ⟨(0, 5, 6), .translationFault, 16, true⟩) := by decide
theorem test_witness_ArithmeticFrame :
    (nextOf (exec (.add 1 2) (flat16 0 [] (0, 5, 6)))).map regs = some (3, 11, 6) ∧
      (nextOf (exec (.sub 2 1) (flat16 0 [] (0, 5, 6)))).map regs = some (3, 5, 1) ∧
      (nextOf (exec (.sub 2 3) (flat16 0 [] (0, 5, 6)))).map regsAndLatch =
        some ⟨(0, 5, 6), .invalidRegister, 3, true⟩ := by decide
theorem test_witness_ControlFrame :
    (nextOf (exec (.beq 1 2 0) (flat16 0 [] (0, 5, 5)))).map regs = some (1, 5, 5) ∧
      (nextOf (exec .halt (flat16 0 [] (0, 5, 6)))).map regs = some (1, 5, 6) := by decide

theorem test_witness_StepKeepsTheSurroundings : (nextOf (step (flat16 0 [2, 1, 8] (0, 5, 6)))).isSome := by decide
theorem test_witness_GeneralRegistersWrittenOnlyByName :
    (flat16 0 [3, 1, 2] (0, 5, 6)).Running ∧ after (flat16 0 [3, 1, 2] (0, 5, 6)) (fun t => t.r1) = some 11 ∧
      after (flat16 0 [3, 2, 1] (0, 5, 6)) (fun t => t.r2) = some 11 := by decide
theorem test_witness_MemoryWrittenOnlyByStoreWord :
    (flat16 0 [2, 1, 14] (0, 0x0506, 0)).Running ∧
      after (flat16 0 [2, 1, 14] (0, 0x0506, 0)) (cells 14 2) = some [6, 5] ∧
      cells 14 2 (flat16 0 [2, 1, 14] (0, 0x0506, 0)) = [0, 0] := by decide
theorem test_witness_FaultsArePrecise :
    (flat16 0 [2, 1, 15] (0, 5, 6)).Running ∧ (flat16 0 [2, 1, 15] (0, 5, 6)).faultCause = .none ∧
      after (flat16 0 [2, 1, 15] (0, 5, 6)) (fun t => t.faultCause) = some .physicalRangeFault := by decide
/-- A step that ends a run cleanly, one that ends it by a fault, and one that does not end it. -/
theorem test_witness_RunEndsByHaltOrFault :
    (flat16 0 [0xFF] (0, 0, 0)).Running ∧ (flat16 0 [0xFF] (0, 0, 0)).faultCause = .none ∧
      after (flat16 0 [0xFF] (0, 0, 0)) (fun t => decide t.EndedCleanly) = some true ∧
      after (flat16 0 [0] (0, 0, 0)) (fun t => decide t.EndedByFault) = some true ∧
      after (flat16 0 [3, 1, 1] (0, 0, 0)) (fun t => t.haltFlag) = some false := by decide

/-- Two states that differ in everything that no step reads. -/
theorem test_witness_ControlStateIsNotObserved :
    let s := flat16 0 [3, 1, 1] (0, 1, 2)
    let u := { s with
      faultCause := .invalidOpcode, faultInfo := 7, procs := [], nextPid := 9, occ := [3], abortedLoads := [1] }
    s ≠ u ∧ s.Running ∧ u.Running ∧ u.pc = s.pc ∧ u.r1 = s.r1 ∧ u.r2 = s.r2 ∧ u.curPid = s.curPid ∧ u.tt = s.tt ∧
      u.mem = s.mem ∧ u.physSize = s.physSize ∧ after s regsAndLatch = some ⟨(3, 2, 2), .none, 0, false⟩ ∧
      after u regsAndLatch = some ⟨(3, 2, 2), .invalidOpcode, 7, false⟩ := by decide
/-- The same with an instruction that faults: both latch its fault, and each halts the records it has. -/
theorem test_witness_ControlStateIsNotObserved_fault :
    let s := flat16 0 [6] (0, 1, 2)
    let u := { s with faultCause := .translationFault, faultInfo := 9, procs := [⟨1, .running⟩, ⟨4, .running⟩] }
    s.Running ∧ u.Running ∧ after s (fun t => (regsAndLatch t, t.procs)) =
        some (⟨(0, 1, 2), .invalidOpcode, 6, true⟩, [⟨1, .halted⟩]) ∧
      after u (fun t => (regsAndLatch t, t.procs)) =
        some (⟨(0, 1, 2), .invalidOpcode, 6, true⟩, [⟨1, .halted⟩, ⟨4, .running⟩]) := by decide
/-- A table with an entry of another process, and one without it. -/
theorem test_witness_OtherProcessesEntriesAreIgnored :
    let s := machine 16 [⟨2, 0, 16, 3⟩, ⟨1, 0, 16, 0⟩] 0 [3, 1, 1] (0, 1, 2)
    ([⟨1, 0, 16, 0⟩] : List TTEntry).filter (fun e => e.pid == s.curPid) = s.tt.filter (fun e => e.pid == s.curPid) ∧
      [⟨1, 0, 16, 0⟩] ≠ s.tt ∧ after s regs = some (3, 2, 2) := by decide

/-- A process whose one entry ends at cell 3 reaches no cell from 5 up, so a memory that differs there alone is no other
to it. -/
theorem test_witness_UnreachedCellsDoNotMatter :
    let s := machine 16 [⟨1, 0, 4, 0⟩] 0 [3, 1, 1] (0, 1, 2)
    (∀ a, s.Reaches a → (s.mem.write 9 7).read a = s.mem.read a) ∧ (s.mem.write 9 7).read 9 ≠ s.mem.read 9 ∧
      after s regs = some (3, 2, 2) := by
  refine ⟨?_, by decide, by decide⟩
  rintro a ⟨la, pa, translated, reached⟩
  have below : pa < 4 := by
    revert translated
    simp only [translateAddr, machine, List.filter_cons, List.filter_nil]
    split_ifs with hit
    · simp only [TTEntry.hits, Bool.and_eq_true, decide_eq_true_eq] at hit
      intro translated
      injection translated with placed
      simp only at placed
      omega
    · intro translated
      cases translated
  have other : a = 0 ∨ a = 1 ∨ a = 2 ∨ a = 3 ∨ a = 4 := by omega
  rcases other with rfl | rfl | rfl | rfl | rfl <;> decide

theorem test_witness_StoredWordLoadsBack :
    translateAddr (flat16 0 [] (0, 5, 6)).tt 1 14 = .ok 14 ∧ 14 + 1 < (flat16 0 [] (0, 5, 6)).physSize ∧
      (nextOf (exec (.storeWord 2 14) (flat16 0 [] (0, 5, 6)))).isSome := by decide
/-- The three cases of the cell fetched: the low byte, the high byte, another. -/
theorem test_witness_FetchSeesStoredBytes :
    let s := flat16 0 [] (0, 0x1234, 6)
    (nextOf (exec (.storeWord 1 14) s)).map (fun t => (memReadByte t 14, memReadByte t 15, memReadByte t 13)) =
        some (.ok 0x34, .ok 0x12, .ok 0) ∧
      translateAddr s.tt 1 14 = .ok 14 ∧ translateAddr s.tt 1 15 = .ok 15 ∧ translateAddr s.tt 1 13 = .ok 13 ∧
      14 + 1 < s.physSize := by decide
theorem test_witness_SubUndoesAdd : Reg.r1 ≠ .pc ∧ Reg.r2 ≠ .pc ∧ Reg.r1 ≠ .r2 := by decide
/-- B3 and B4: the furthest and the lowest continuation. -/
theorem test_witness_TakenBranchReach :
    let s := flat16 6 [] (6, 7, 8)
    s.sourceValue 3 .r1 = s.sourceValue 3 .r1 ∧ (nextOf (exec (.beq 1 1 0xFF) s)).map regs = some (0x100, 7, 8) ∧
      (nextOf (exec (.beq 0 0 0) s)).map regs = some (1, 7, 8) := by decide

/-- One entry, none and two; a reordered table; a process without entries. -/
theorem test_witness_TranslateFollowsItsRule :
    let hits := fun (tt : List TTEntry) (pid la : Nat) =>
      tt.filter (fun e => decide (e.pid = pid ∧ e.logicalBase ≤ la ∧ la < e.logicalBase + e.length))
    hits ttA 2 0x45 = [⟨2, 0x40, 6, 18⟩] ∧ hits ttA 2 0x46 = [] ∧
      2 ≤ (hits (ttA ++ [⟨2, 12, 1, 0⟩]) 2 12).length ∧ ttA.reverse.Perm ttA ∧ ttA.reverse ≠ ttA ∧
      ∀ e ∈ ttA, e.pid ≠ 1 := by decide
/-- On T10 to T14's table: the last address of the overlap, the one after it, and the one before it. -/
theorem test_witness_OverlapFaultsPerLookup :
    let d : TTEntry := ⟨2, 10, 5, 25⟩
    let e : TTEntry := ⟨2, 0, 13, 5⟩
    (d.logicalBase ≤ 12 ∧ 12 < d.logicalBase + d.length ∧ e.logicalBase ≤ 12 ∧ 12 < e.logicalBase + e.length) ∧
      (d.logicalBase ≤ 13 ∧ 13 < d.logicalBase + d.length ∧
        ∀ f ∈ ([] ++ [] ++ e :: [] : List TTEntry), f.hits 2 13 = false) ∧
      (e.logicalBase ≤ 9 ∧ 9 < e.logicalBase + e.length ∧
        ∀ f ∈ ([] ++ d :: [] ++ [] : List TTEntry), f.hits 2 9 = false) ∧
      d.pid = 2 ∧ e.pid = 2 ∧ ({ State.powerOn 32 with tt := [d] }).tt = [] ++ d :: [] := by decide
theorem test_witness_ZeroLengthEntryNeverCounts : (⟨1, 4, 0, 0⟩ : TTEntry).length = 0 := by decide
theorem test_witness_TranslationPreservesOffsets :
    let e : TTEntry := ⟨2, 0x40, 6, 18⟩
    ttA.filter (fun f => f.hits 2 0x40) = [e] ∧ ttA.filter (fun f => f.hits 2 (0x40 + BitVec.ofNat 16 5)) = [e] ∧
      (0x40 : Word).toNat + 5 < 65536 ∧ translateAddr ttA 2 0x40 = .ok 18 := by decide
/-- The addresses 15 and 16 of the flat machine of 16 cells, and the one range fault there. -/
theorem test_witness_FlatTableIsTheIdentity :
    let s := flat16 0 [] (0, 0, 0)
    s.tt.filter (fun e => e.pid == s.curPid) =
        [{ pid := s.curPid, logicalBase := 0, length := s.physSize, physicalBase := 0 }] ∧
      (15 : Word).toNat < s.physSize ∧ s.physSize ≤ (16 : Word).toNat ∧
      memReadWord s 15 = .error (.physicalRangeFault 16) ∧ memWriteWord s 15 0 = .error (.physicalRangeFault 16) := by decide

/-- The first and the last cell, and the address one past it. -/
theorem test_witness_PowerOnState : 0 < 26 ∧ 25 < 26 ∧ (26 : Nat) ≤ 26 := by decide
/-- Accepted, refused while running, refused for an unknown id, refused after an aborted load. -/
theorem test_witness_StartFollowsItsRule :
    ((createProcess State.reset).haltFlag = true ∧ (∃ p ∈ (createProcess State.reset).procs, p.id = 1) ∧
      1 ∉ (createProcess State.reset).abortedLoads) ∧
      (flat16 0 [] (0, 0, 0)).haltFlag = false ∧ (State.reset.haltFlag = true ∧ ∀ p ∈ State.reset.procs, p.id ≠ 1) ∧
      ((abortLoad (createProcess State.reset) 1).haltFlag = true ∧
        (∃ p ∈ (abortLoad (createProcess State.reset) 1).procs, p.id = 1) ∧
        1 ∈ (abortLoad (createProcess State.reset) 1).abortedLoads) := by decide

/-- Reset meets the invariant: a witness for every statement over it. -/
theorem test_witness_Inv : State.reset.Inv where
  sizeBounds := by decide
  memCanonical := by decide
  memInside := by decide
  occCanonical := by decide
  occInside := by decide
  tableInRange := by decide
  idsIncreasing := by decide
  idsIssued := by decide
  nextPositive := by decide
  latchOk := rfl
  faultHalts := by decide
  runningCurrent := by decide
  abortedRecorded := by decide
  abortedIdle := by decide
/-- A table entry's length is below 65536 (spec/20_memory.md R41), but for the flat entry of the largest machine. -/
theorem test_entry_range :
    (⟨1, 0, 65535, 65535⟩ : TTEntry).InRange ∧ ¬ (⟨1, 0, 65536, 0⟩ : TTEntry).InRange ∧
      (⟨1, 0, 65536, 0⟩ : TTEntry).LargestFlat 65536 ∧ ¬ (⟨1, 0, 65536, 0⟩ : TTEntry).LargestFlat 26 := by decide
/-- A running machine that meets the invariant, and whose step runs an instruction. -/
theorem test_witness_StepKeepsInv :
    let s := flat16 0 [2, 1, 8] (0, 5, 6)
    s.Inv ∧ after s (fun t => (t.pc, cells 8 2 t)) = some (3, [5, 0]) := by
  refine ⟨⟨by decide, by decide, by decide, by decide, by decide, by decide, by decide, by decide, by decide, rfl,
    by decide, by decide, by decide, by decide⟩, by decide⟩
/-- L9 and L12: a load that succeeds and one that runs out of memory, from a halted machine. -/
theorem test_witness_LoadKeepsInv :
    State.reset.haltFlag = true ∧ load (State.powerOn 8) [1, 0, 2, 0, 0xFF, 0xFE] = .loaded 1 { createProcess (State.powerOn 8) with
        tt := [⟨1, 0, 2, 0⟩], mem := [(0, 0xFF), (1, 0xFE)], occ := [0, 1] } ∧
      load (State.powerOn 8) [1, 0, 9, 0, 1, 2, 3, 4, 5, 6, 7, 8, 9] =
        .outOfMemory (abortLoad (createProcess (State.powerOn 8)) 1) := by decide
theorem test_witness_ReachableStatesSatisfyInv : Reachable (State.powerOn 65536) :=
  .powerOn 65536 (by decide) (by decide)

/-- AL1: a fit at the end of memory, a request of nothing, and a request that does not fit. -/
theorem test_witness_AllocateIsFirstFit :
    let s := { State.powerOn 8 with occ := [0, 1, 2] }
    allocate s 5 = some (3, { s with occ := [0, 1, 2, 3, 4, 5, 6, 7] }) ∧ allocate s 0 = some (0, s) ∧
      allocate s 6 = none := by decide
theorem test_witness_AllocationsNeverOverlap :
    let s := State.powerOn 8
    allocate s 3 = some (0, { s with occ := [0, 1, 2] }) ∧
      allocate { s with occ := [0, 1, 2] } 5 = some (3, { s with occ := [0, 1, 2, 3, 4, 5, 6, 7] }) := by decide
/-- L3 to L8 and L10: each condition alone, and none of them. -/
theorem test_witness_MalformedImageConditions :
    imageValid [] = false ∧ imageValid [1, 0, 1] = false ∧ imageValid [1, 0, 0, 1] = false ∧
      imageValid [1, 0, 0, 0] = true := by decide
theorem test_witness_LoadCreatesOneProcess :
    load (State.powerOn 8) [1, 0x90, 1, 0, 7] = .loaded 1 { createProcess (State.powerOn 8) with
      tt := [⟨1, 0x10, 1, 0⟩], mem := [(0, 7)], occ := [0] } := by decide
/-- A load that succeeds, one that runs out of memory at its first segment, and one that does so at its second, with one
cell more than is left. -/
theorem test_witness_LoadLeavesPriorAllocations :
    let s := { State.powerOn 8 with occ := [0, 1], mem := [(1, 9)] }
    (load s [1, 0, 1, 0, 7] = .loaded 1 { createProcess s with
        tt := [⟨1, 0, 1, 2⟩], mem := [(1, 9), (2, 7)], occ := [0, 1, 2] }) ∧
      load s [1, 0, 7, 0, 1, 2, 3, 4, 5, 6, 7] = .outOfMemory (abortLoad (createProcess s) 1) ∧
      load s [2, 0x81, 2, 0, 0x40, 5, 1, 1, 2, 3, 4, 5, 6] = .outOfMemory { createProcess s with
        tt := [⟨1, 1, 2, 2⟩], mem := [(1, 9), (2, 1), (3, 2)], occ := [0, 1, 2, 3], abortedLoads := [1] } := by decide
/-- The process of an aborted load is not started (spec/93_implementation_defined.md U14). -/
theorem test_start_aborted_load :
    start (abortLoad (createProcess (State.powerOn 8)) 1) 1 = .refused (.startAbortedLoad 1) := rfl
/-- The last byte of the second of two segments that touch. -/
theorem test_witness_LoadRoundTrip :
    let image : List Byte := [2, 0, 2, 0, 2, 1, 2, 0xA, 0xB, 0xC]
    (∀ e ∈ (State.powerOn 8).tt, e.pid ≠ (State.powerOn 8).nextPid) ∧
      load (State.powerOn 8) image = .loaded 1 { createProcess (State.powerOn 8) with
        tt := [⟨1, 0, 2, 0⟩, ⟨1, 2, 1, 2⟩], mem := [(0, 0xA), (1, 0xB), (2, 0xC)], occ := [0, 1, 2] } ∧
      1 < (image.getD 0 0).toNat ∧ 0 < (image.getD (2 + 3 * 1) 0).toNat ∧
      (∀ k', k' < (image.getD 0 0).toNat → k' ≠ 1 →
        (image.getD (1 + 3 * 1) 0).toNat % 128 + 0 < (image.getD (1 + 3 * k') 0).toNat % 128 ∨
        (image.getD (1 + 3 * k') 0).toNat % 128 + (image.getD (2 + 3 * k') 0).toNat ≤
          (image.getD (1 + 3 * 1) 0).toNat % 128 + 0) := by decide
theorem test_witness_FlatLaunchReadsThePreloadedBytes :
    ([0xFF, 7] : List Byte).length ≤ 65536 ∧ ([0xFF, 7] : List Byte)[(1 : Word).toNat]? = some 7 := by decide
/-- The host's reading after a halt, and not during a run (spec/70_reset_and_hazards.md R166). -/
theorem test_observe :
    observeCell (flat16 0 [9] (0, 0, 0)) 0 = none ∧
      observeCell { flat16 0 [9] (0, 0, 0) with haltFlag := true } 0 = some 9 ∧
      observeLogical { edge16 15 [9] (0, 0, 0) with haltFlag := true } 1 0x21 = some 9 ∧
      observe (flat16 0 [9] (0, 0, 0)) = none := by decide

/-- The examples of spec/30_encoding.md R70. -/
theorem test_assembly :
    assembly (.storeWord 1 0x0E) = some "STORE_WORD R1, 0x0E".toList ∧
      assembly (.beq 1 2 0x0A) = some "BEQ R1, R2, 0x0A".toList ∧ assembly .halt = some "HALT".toList ∧
      assembly (.add 3 0) = none := by decide

end Sys2Proof.Tests
end

section
/-! SUPPORT. Which register a step can change, beside PC (spec/10_state.md R12). -/

namespace Sys2Proof.Machine

/-! ## What the operations of a cycle do to R1 and R2, read as registers -/

theorem State.readReg_advancePc {q : Reg} (general : q ≠ .pc) (s : State) (n : Nat) :
    (s.advancePc n).readReg q = s.readReg q := by
  cases q with
  | pc => exact absurd rfl general
  | r1 | r2 => rfl

theorem State.readReg_afterOperands {q : Reg} (general : q ≠ .pc) (s : State) (n : Nat) :
    (s.afterOperands n).readReg q = s.readReg q := s.readReg_advancePc general n

@[simp] theorem readReg_takeFault (s : State) (e : Exc) (q : Reg) : (takeFault s e).readReg q = s.readReg q := by
  cases q <;> rfl

@[simp] theorem State.readReg_stopCurrent (s : State) (q : Reg) : s.stopCurrent.readReg q = s.readReg q := by
  cases q <;> rfl

@[simp] theorem State.readReg_withMem (s : State) (m : Memory) (q : Reg) :
    ({ s with mem := m } : State).readReg q = s.readReg q := by
  cases q <;> rfl

/-- Of the general registers, a cycle that writes a result changes the destination alone. -/
theorem State.readReg_result {q d : Reg} (general : q ≠ .pc) (other : q ≠ d) (s : State) (n : Nat) (v : Word) :
    (((s.afterOperands n).writeReg d v).advancePc 1).readReg q = s.readReg q := by
  rw [readReg_advancePc general, readReg_writeReg, if_neg other, readReg_afterOperands general]

/-! ## The cycle of a running machine -/

/-- A step of a running machine runs the fetched instruction, or takes the fault of the fetch. -/
theorem step_running_cases {s t : State} (running : s.Running) (stepped : step s = .next t) :
    (∃ i, fetchInstr s = .ok i ∧ exec i s = .next t) ∨ ∃ e, fetchInstr s = .error e ∧ t = takeFault s e := by
  rw [step_running running] at stepped
  cases fetched : fetchInstr s with
  | ok i =>
    rw [fetched] at stepped
    exact .inl ⟨i, rfl, stepped⟩
  | error e =>
    rw [fetched] at stepped
    cases stepped
    exact .inr ⟨e, rfl, rfl⟩

/-- The instruction is a LOAD_WORD, ADD or SUB whose first register byte names `q`. -/
def NamesDestination (i : Instr) (q : Reg) : Prop :=
  (∃ addr, i = .loadWord q.toByte addr) ∨ (∃ r, i = .add q.toByte r) ∨ (∃ r, i = .sub q.toByte r)

/-- ADD and SUB leave every general register but their destination. -/
theorem registerOperation_keeps_reg {s t : State} {f : Word → Word → Word} {reg1 reg2 : Byte} {q : Reg}
    (general : q ≠ .pc) (unnamed : reg1 ≠ q.toByte)
    (done : completeCycle s (registerOperation f reg1 reg2 s) = .next t) : t.readReg q = s.readReg q := by
  rcases registerOperation_cases done with ⟨d, r, rfl, rfl, rfl⟩ | ⟨e, -, rfl⟩
  · exact s.readReg_result general (fun same => unnamed (same ▸ rfl)) 2 _
  · exact readReg_takeFault s e q

/-- A cycle leaves a general register that its instruction does not name as the destination. -/
theorem exec_keeps_reg {s t : State} {i : Instr} {q : Reg} (general : q ≠ .pc)
    (unnamed : ¬ NamesDestination i q) (done : exec i s = .next t) : t.readReg q = s.readReg q := by
  cases i with
  | loadWord reg addr =>
    rcases execLoadWord_cases done with ⟨r, pa, rfl, -, -, rfl⟩ | ⟨e, -, rfl⟩
    · exact s.readReg_result general (fun same => unnamed (.inl ⟨addr, same ▸ rfl⟩)) 2 _
    · exact readReg_takeFault s e q
  | storeWord reg addr =>
    rcases execStoreWord_cases done with ⟨r, pa, -, -, -, rfl⟩ | ⟨e, -, rfl⟩
    · rw [State.readReg_advancePc general, State.readReg_withMem, State.readReg_afterOperands general]
    · exact readReg_takeFault s e q
  | add reg1 reg2 =>
    exact registerOperation_keeps_reg general (fun same => unnamed (.inr (.inl ⟨reg2, same ▸ rfl⟩))) done
  | sub reg1 reg2 =>
    exact registerOperation_keeps_reg general (fun same => unnamed (.inr (.inr ⟨reg2, same ▸ rfl⟩))) done
  | beq reg1 reg2 addr =>
    rcases execBeq_cases done with ⟨a, b, -, -, rfl⟩ | ⟨e, -, rfl⟩
    · split
      · exact s.readReg_result general general 3 _
      · rw [State.readReg_advancePc general, State.readReg_afterOperands general]
    · exact readReg_takeFault s e q
  | halt =>
    rw [execHalt_cases done, State.readReg_advancePc general, State.readReg_stopCurrent]

/-- R12 for R1 and R2 alike: a step that changes the register has fetched an instruction that names it. -/
theorem step_changes_reg_by_name {s t : State} {q : Reg} (general : q ≠ .pc) (running : s.Running)
    (stepped : step s = .next t) (changed : t.readReg q ≠ s.readReg q) :
    ∃ i, fetchInstr s = .ok i ∧ NamesDestination i q := by
  rcases step_running_cases running stepped with ⟨i, fetched, done⟩ | ⟨e, -, rfl⟩
  · exact ⟨i, fetched, Classical.byContradiction fun unnamed => changed (exec_keeps_reg general unnamed done)⟩
  · exact absurd (readReg_takeFault s e q) changed

/-- Settles O28: the two clauses are `step_changes_reg_by_name` for R1 and for R2. -/
theorem generalRegistersWrittenOnlyByName : Obligations.GeneralRegistersWrittenOnlyByName :=
  fun _ _ running stepped =>
    ⟨fun changed => step_changes_reg_by_name (q := .r1) (by decide) running stepped changed,
      fun changed => step_changes_reg_by_name (q := .r2) (by decide) running stepped changed⟩

end Sys2Proof.Machine
end

section
/-! SUPPORT. Translation: which tables answer alike, and what one lookup of a table answers (spec/20_memory.md
R42 to R49). -/

namespace Sys2Proof.Machine

/-! ## The lookup -/

/-- The entries that contain an address, with `TTEntry.hits` written out as in spec/20_memory.md R42. -/
theorem filter_hits_eq (tt : List TTEntry) (pid : Nat) (la : Word) :
    tt.filter (fun e => e.hits pid la) =
      tt.filter (fun e => decide (e.pid = pid ∧ e.logicalBase ≤ la.toNat ∧ la.toNat < e.logicalBase + e.length)) :=
  List.filter_congr fun e _ => by rw [Bool.eq_iff_iff, TTEntry.hits_iff, decide_eq_true_iff]

/-- The one entry that contains an address places it. -/
theorem translateAddr_of_filter {tt : List TTEntry} {pid : Nat} {la : Word} {e : TTEntry}
    (only : tt.filter (fun e => e.hits pid la) = [e]) :
    translateAddr tt pid la = .ok (e.physicalBase + (la.toNat - e.logicalBase)) :=
  translateAddr_ok_iff.mpr ⟨e, only, rfl⟩

/-- An entry that contains an address places it where no entry before it or after it does. -/
theorem translateAddr_of_unique {before after : List TTEntry} {pid : Nat} {la : Word} {e : TTEntry}
    (hit : e.hits pid la = true) (others : ∀ f ∈ before ++ after, f.hits pid la = false) :
    translateAddr (before ++ e :: after) pid la = .ok (e.physicalBase + (la.toNat - e.logicalBase)) := by
  have unhit : ∀ part : List TTEntry, (∀ f ∈ part, f ∈ before ++ after) →
      part.filter (fun f => f.hits pid la) = [] :=
    fun part inside => List.filter_eq_nil_iff.mpr fun f member => by simp [others f (inside f member)]
  refine translateAddr_of_filter ?_
  simp [hit, unhit before fun _ => List.mem_append_left _, unhit after fun _ => List.mem_append_right _]

/-- The same by the entry's place in the table. -/
theorem translateAddr_of_getElem? {tt : List TTEntry} {k pid : Nat} {la : Word} {e : TTEntry} (entry : tt[k]? = some e)
    (hit : e.hits pid la = true) (others : ∀ k' f, tt[k']? = some f → k' ≠ k → f.hits pid la = false) :
    translateAddr tt pid la = .ok (e.physicalBase + (la.toNat - e.logicalBase)) := by
  have split : tt = tt.take k ++ e :: tt.drop (k + 1) := by
    obtain ⟨inside, rfl⟩ := List.getElem?_eq_some_iff.mp entry
    simp
  rw [split]
  refine translateAddr_of_unique hit fun f member => ?_
  rcases List.mem_append.mp member with before | after
  · obtain ⟨i, place, rfl⟩ := List.mem_take_iff_getElem.mp before
    exact others i _ (List.getElem?_eq_getElem _) (by omega)
  · obtain ⟨i, place, rfl⟩ := List.mem_drop_iff_getElem.mp after
    exact others (k + 1 + i) _ (List.getElem?_eq_getElem _) (by omega)

/-! ## Tables that answer alike -/

/-- A lookup looks only at the entries that contain the address. -/
theorem translateAddr_congr {tt tt' : List TTEntry} {pid : Nat} {la : Word}
    (same : tt'.filter (fun e => e.hits pid la) = tt.filter (fun e => e.hits pid la)) :
    translateAddr tt' pid la = translateAddr tt pid la := by
  simp only [translateAddr, same]

/-- The entries that contain an address are among the process's own. -/
theorem filter_hits_filter_pid (tt : List TTEntry) (pid : Nat) (la : Word) :
    (tt.filter (fun e => e.pid == pid)).filter (fun e => e.hits pid la) = tt.filter (fun e => e.hits pid la) := by
  rw [List.filter_filter]
  exact List.filter_congr fun e _ => by simp only [TTEntry.hits, Bool.and_assoc, Bool.and_comm, Bool.and_self_left]

/-- A lookup looks only at the process's own entries. -/
theorem translateAddr_congr_own {tt tt' : List TTEntry} {pid : Nat}
    (own : tt'.filter (fun e => e.pid == pid) = tt.filter (fun e => e.pid == pid)) (la : Word) :
    translateAddr tt' pid la = translateAddr tt pid la :=
  translateAddr_congr (by rw [← filter_hits_filter_pid tt', own, filter_hits_filter_pid])

/-- The order of the entries has no effect. -/
theorem translateAddr_perm {tt tt' : List TTEntry} (perm : tt'.Perm tt) (pid : Nat) (la : Word) :
    translateAddr tt' pid la = translateAddr tt pid la := by
  have hits := perm.filter (fun e => e.hits pid la)
  cases answer : translateAddr tt pid la with
  | ok pa =>
    obtain ⟨e, only, rfl⟩ := translateAddr_ok_iff.mp answer
    rw [only] at hits
    exact translateAddr_of_filter (List.perm_singleton.mp hits)
  | error e =>
    obtain ⟨several, rfl⟩ := translateAddr_error_iff.mp answer
    exact translateAddr_error_iff.mpr ⟨hits.length_eq ▸ several, rfl⟩

/-! ## The statements about tables -/

/-- Settles O39: the cases of the number of hits, then the three ways in which two tables answer alike. -/
theorem translateFollowsItsRule : Obligations.TranslateFollowsItsRule := by
  rintro tt pid la _ rfl
  rw [← filter_hits_eq]
  refine ⟨fun e => translateAddr_of_filter, fun noHit => ?_, fun several => ?_,
    fun tt' perm => translateAddr_perm perm pid la, fun tt' own => translateAddr_congr_own own la, fun foreign => ?_⟩
  · exact translateAddr_error_iff.mpr ⟨by simp [noHit], rfl⟩
  · exact translateAddr_error_iff.mpr ⟨by omega, rfl⟩
  · have noHit : tt.filter (fun e => e.hits pid la) = [] :=
      List.filter_eq_nil_iff.mpr fun e member hit => foreign e member (TTEntry.hits_iff.mp hit).1
    exact translateAddr_error_iff.mpr ⟨by simp [noHit], rfl⟩

/-- Settles O40: two hits fault, and the one entry that is hit places the address, at either place of the pair. -/
theorem overlapFaultsPerLookup : Obligations.OverlapFaultsPerLookup := by
  rintro before between after d e pid la ownD ownE
  refine ⟨fun lowD highD lowE highE => ?_, fun low high others => ?_, fun low high others => ?_, fun s table => ?_⟩
  · have hitD : d.hits pid la = true := TTEntry.hits_iff.mpr ⟨ownD, lowD, highD⟩
    have hitE : e.hits pid la = true := TTEntry.hits_iff.mpr ⟨ownE, lowE, highE⟩
    refine translateAddr_error_iff.mpr ⟨?_, rfl⟩
    simp only [List.filter_append, List.filter_cons_of_pos, hitD, hitE, List.length_append, List.length_cons]
    omega
  · rw [List.append_assoc] at others ⊢
    exact translateAddr_of_unique (TTEntry.hits_iff.mpr ⟨ownD, low, high⟩) others
  · exact translateAddr_of_unique (TTEntry.hits_iff.mpr ⟨ownE, low, high⟩) others
  · rw [ttRegister, table]

/-- Settles O41: an empty range contains no address, so the entry drops out of every lookup's hits. -/
theorem zeroLengthEntryNeverCounts : Obligations.ZeroLengthEntryNeverCounts := by
  intro before after e pid la empty
  have unhit : e.hits pid la = false := by
    rw [Bool.eq_false_iff, Ne, TTEntry.hits_iff, empty]
    omega
  exact ⟨unhit, translateAddr_congr (by simp [unhit])⟩

/-- Settles O42: both addresses are placed by the same entry, and the addition does not wrap. -/
theorem translationPreservesOffsets : Obligations.TranslationPreservesOffsets := by
  intro tt pid la n pa e only onlyNext noWrap placed
  have member : e ∈ tt.filter (fun f => f.hits pid la) := by simp [only]
  obtain ⟨-, low, -⟩ := TTEntry.hits_iff.mp (List.mem_filter.mp member).2
  have next : (la + BitVec.ofNat 16 n).toNat = la.toNat + n := by
    rw [BitVec.toNat_add, BitVec.toNat_ofNat]
    omega
  rw [translateAddr_of_filter only] at placed
  cases placed
  rw [translateAddr_of_filter onlyNext, next]
  exact congrArg Except.ok (by omega)

/-! ## The flat table -/

/-- Where the process's one entry is the flat one of `n` cells, exactly the addresses below `n` are in it, each placed
at itself (spec/20_memory.md R46). -/
theorem translateAddr_flat {tt : List TTEntry} {pid n : Nat}
    (flat : tt.filter (fun e => e.pid == pid) = [{ pid := pid, logicalBase := 0, length := n, physicalBase := 0 }])
    (la : Word) :
    translateAddr tt pid la = if la.toNat < n then .ok la.toNat else .error (.translationFault la) := by
  have hits : TTEntry.hits ⟨pid, 0, n, 0⟩ pid la = decide (la.toNat < n) := by simp [TTEntry.hits]
  have own := filter_hits_filter_pid tt pid la
  rw [flat] at own
  split_ifs with inside
  · have only : tt.filter (fun e => e.hits pid la) = [⟨pid, 0, n, 0⟩] := by simp [← own, hits, inside]
    simpa using translateAddr_of_filter only
  · exact translateAddr_error_iff.mpr ⟨by simp [← own, hits, inside], rfl⟩

/-- A word is not written for the same reasons for which it is not read (spec/20_memory.md R38, R39). -/
theorem memWriteWord_fails_iff {s : State} {la v : Word} {e : Exc} :
    memWriteWord s la v = .error e ↔ memReadWord s la = .error e :=
  memWriteWord_error_iff.trans memReadWord_error_iff.symm

/-- Settles O43: by `translateAddr_flat`, an address that translates is itself below `N`, so only the cell after it can
lie outside memory. -/
theorem flatTableIsTheIdentity : Obligations.FlatTableIsTheIdentity := by
  intro s la flat
  have answer := translateAddr_flat flat la
  have placed : ∀ pa, translateAddr s.tt s.curPid la = .ok pa → pa = la.toNat ∧ la.toNat < s.physSize := by
    intro pa ok
    rw [answer] at ok
    split_ifs at ok with inside
    cases ok
    exact ⟨rfl, inside⟩
  have noRange : ∀ pa, translateAddr s.tt s.curPid la ≠ .error (.physicalRangeFault pa) := fun pa failed => by
    cases (translateAddr_error_iff.mp failed).2
  refine ⟨fun inside => ?_, fun outside => ?_, fun pa failed => ?_, fun pa v failed => ?_⟩
  · rw [if_pos inside] at answer
    exact ⟨answer, memReadByte_ok_iff.mpr ⟨la.toNat, answer, inside, rfl⟩⟩
  · rw [answer, if_neg (by omega)]
  · rcases memReadByte_error_iff.mp failed with failed | ⟨qa, ok, outside, -⟩
    · exact noRange pa failed
    · obtain ⟨rfl, inside⟩ := placed qa ok
      omega
  · have failed : memReadWord s la = .error (.physicalRangeFault pa) := failed.elim id memWriteWord_fails_iff.mp
    rcases memReadWord_error_iff.mp failed with failed | ⟨qa, ok, ⟨outside, -⟩ | ⟨last, same⟩⟩
    · exact absurd failed (noRange pa)
    · obtain ⟨rfl, inside⟩ := placed qa ok
      omega
    · obtain ⟨rfl, -⟩ := placed qa ok
      cases same
      exact ⟨last.symm, last.symm⟩

end Sys2Proof.Machine
end

section
/-! SUPPORT. The word that a STORE_WORD leaves in memory: which instruction writes it, and what a load and a fetch then
read (spec/20_memory.md R34 to R39). -/

namespace Sys2Proof.Machine

/-! ## Words in memory -/

/-- The two writes of `memWriteWord` at a physical address (spec/20_memory.md R39). -/
def Memory.writeWord (m : Memory) (pa : Nat) (v : Word) : Memory :=
  (m.write pa (lowByte v)).write (pa + 1) (highByte v)

theorem Memory.read_writeWord (m : Memory) (pa a : Nat) (v : Word) :
    (m.writeWord pa v).read a = if a = pa then lowByte v else if a = pa + 1 then highByte v else m.read a := by
  rw [writeWord, read_write, read_write]
  by_cases low : a = pa <;> simp [low]

/-- The bytes of a word put together again (spec/20_memory.md R34). -/
theorem wordOfBytes_low_high (v : Word) : wordOfBytes (lowByte v) (highByte v) = v := by
  apply BitVec.eq_of_toNat_eq
  simp only [wordOfBytes, lowByte, highByte, BitVec.toNat_ofNat, BitVec.extractLsb'_toNat, Nat.shiftRight_eq_div_pow]
  omega

/-! ## Operands in the words of the statements -/

theorem ofNat_addr_eq (addr : Byte) : BitVec.ofNat 16 addr.toNat = operandAddr addr :=
  BitVec.ofNat_toNat 16 addr

theorem State.readReg_afterOperands_eq (s : State) (n : Nat) (r : Reg) :
    (s.afterOperands n).readReg r = s.sourceValue n r := by
  cases r <;> rfl

/-- Two operand fetches and the final increment (spec/40_execution_loop.md R82, R84). -/
theorem pc_add_two_add_one (pc : Word) : pc + 2#16 + 1#16 = pc + 3#16 := BitVec.add_assoc pc 2#16 1#16

theorem State.writeReg_afterOperands_advancePc (s : State) (d : Reg) (v : Word) :
    ((s.afterOperands 2).writeReg d v).advancePc 1 = s.afterResult v d := by
  cases d with
  | pc => rfl
  | r1 | r2 => simp only [advancePc, afterOperands, writeReg, pc_add_two_add_one]; rfl

/-! ## Loads and stores that complete -/

theorem exec_loadWord_completes {s : State} {addr : Byte} {pa : Nat} (d : Reg)
    (placed : translateAddr s.tt s.curPid (operandAddr addr) = .ok pa) (inside : pa + 1 < s.physSize) :
    exec (.loadWord d.toByte addr) s =
      .next (s.afterResult (wordOfBytes (s.mem.read pa) (s.mem.read (pa + 1))) d) := by
  have read : memReadWord (s.afterOperands 2) (operandAddr addr) = .ok _ :=
    memReadWord_ok_iff.mpr ⟨pa, placed, inside, rfl⟩
  simp [exec, execLoadWord, read, State.writeReg_afterOperands_advancePc]

theorem exec_storeWord_completes {s : State} {addr : Byte} {pa : Nat} (r : Reg)
    (placed : translateAddr s.tt s.curPid (operandAddr addr) = .ok pa) (inside : pa + 1 < s.physSize) :
    exec (.storeWord r.toByte addr) s =
      .next { s with pc := s.pc + 3, mem := s.mem.writeWord pa (s.sourceValue 2 r) } := by
  have written : memWriteWord (s.afterOperands 2) (operandAddr addr) (s.sourceValue 2 r) = .ok _ :=
    memWriteWord_ok_iff.mpr ⟨pa, placed, inside, rfl⟩
  simp only [exec, execStoreWord, operandReg_toByte, attempt_ok_bind, State.readReg_afterOperands_eq,
    written, completeCycle_ok, State.advancePc, State.afterOperands_pc, pc_add_two_add_one]
  rfl

/-- Settles O35: the load reads the two bytes of the word back, wherever the store's register is. -/
theorem storedWordLoadsBack : Obligations.StoredWordLoadsBack := by
  intro s r d addr pa placed inside
  rw [ofNat_addr_eq] at placed
  refine ⟨_, exec_storeWord_completes r placed inside, ?_⟩
  rw [exec_loadWord_completes d (pa := pa) (by exact placed) (by exact inside)]
  simp [Memory.read_writeWord, wordOfBytes_low_high]

/-- Settles O36: the store keeps the table, so the fetch reads cell `qa` of the stored word's memory. -/
theorem fetchSeesStoredBytes : Obligations.FetchSeesStoredBytes := by
  intro s t r addr pa qa la placed inside stored placedFetch insideFetch
  rw [ofNat_addr_eq] at placed
  rw [exec_storeWord_completes r placed inside] at stored
  cases stored
  exact memReadByte_ok_iff.mpr ⟨qa, placedFetch, insideFetch, Memory.read_writeWord _ _ _ _⟩

/-! ## What an instruction does to memory -/

/-- A STORE_WORD that completes writes one word at the translation of its address; every other cycle keeps memory. -/
theorem exec_mem_cases {s t : State} {i : Instr} (done : exec i s = .next t) :
    t.mem = s.mem ∨
      ∃ reg addr pa v, i = .storeWord reg addr ∧ translateAddr s.tt s.curPid (operandAddr addr) = .ok pa ∧
        pa + 1 < s.physSize ∧ t.mem = s.mem.writeWord pa v := by
  cases i with
  | loadWord reg addr =>
    rcases execLoadWord_cases done with ⟨r, pa, -, -, -, rfl⟩ | ⟨e, -, rfl⟩
    · exact .inl (State.writeReg_mem _ r _)
    · exact .inl rfl
  | storeWord reg addr =>
    rcases execStoreWord_cases done with ⟨r, pa, -, placed, inside, rfl⟩ | ⟨e, -, rfl⟩
    · exact .inr ⟨reg, addr, pa, _, rfl, placed, inside, rfl⟩
    · exact .inl rfl
  | add reg1 reg2 | sub reg1 reg2 =>
    rcases registerOperation_cases done with ⟨d, r, -, -, rfl⟩ | ⟨e, -, rfl⟩
    · exact .inl (State.writeReg_mem _ d _)
    · exact .inl rfl
  | beq reg1 reg2 addr =>
    rcases execBeq_cases done with ⟨a, b, -, -, rfl⟩ | ⟨e, -, rfl⟩
    · split <;> exact .inl rfl
    · exact .inl rfl
  | halt =>
    rw [execHalt_cases done]
    exact .inl rfl

/-- Settles O29: a cycle that changes memory has fetched a STORE_WORD, by `exec_mem_cases`, and a cell other than the two
of its word is as before. -/
theorem memoryWrittenOnlyByStoreWord : Obligations.MemoryWrittenOnlyByStoreWord := by
  intro s t a running stepped changed
  rcases step_running_cases running stepped with ⟨i, fetched, done⟩ | ⟨e, -, rfl⟩
  · rcases exec_mem_cases done with kept | ⟨reg, addr, pa, v, rfl, placed, inside, written⟩
    · exact absurd (by rw [kept]) changed
    · have cell : a = pa ∨ a = pa + 1 := by
        by_contra other
        rw [not_or] at other
        exact changed (by rw [written, Memory.read_writeWord, if_neg other.1, if_neg other.2])
      exact ⟨reg, addr, pa, fetched, ofNat_addr_eq addr ▸ placed, cell, by omega⟩
  · exact absurd rfl changed

end Sys2Proof.Machine
end

section
/-! SUPPORT. Noninterference: two machines that differ in the table and in memory alone, but translate alike and agree on
the cells that the current process reaches, make the same cycle (spec/20_memory.md R42, R45, R56). -/

namespace Sys2Proof.Machine

/-- The machine with another table and another memory. -/
def State.withView (s : State) (tt : List TTEntry) (m : Memory) : State := { s with tt := tt, mem := m }

/-- The outcome `o` is the next state `t` of `s`, seen through the table `tt` and the memory `m`: the cycle either kept
memory or stored one word, in both memories at the same cells that the process of `s` reaches. -/
def CycleSeenThrough (s t : State) (tt : List TTEntry) (m : Memory) (o : Host.Outcome State Fault Refusal) : Prop :=
  (t.mem = s.mem ∧ o = .next (t.withView tt m)) ∨
    ∃ la pa v, translateAddr s.tt s.curPid la = .ok pa ∧ t.mem = s.mem.writeWord pa v ∧
      o = .next (t.withView tt (m.writeWord pa v))

/-! ## The state's operations -/

theorem State.readReg_withView (s : State) (tt : List TTEntry) (m : Memory) (r : Reg) :
    (s.withView tt m).readReg r = s.readReg r := by
  cases r <;> rfl

theorem State.sourceValue_withView (s : State) (tt : List TTEntry) (m : Memory) (n : Nat) (r : Reg) :
    (s.withView tt m).sourceValue n r = s.sourceValue n r := by
  cases r <;> rfl

theorem State.writeReg_withView (s : State) (tt : List TTEntry) (m : Memory) (r : Reg) (v : Word) :
    (s.withView tt m).writeReg r v = (s.writeReg r v).withView tt m := by
  cases r <;> rfl

theorem State.afterOperands_withView (s : State) (tt : List TTEntry) (m : Memory) (n : Nat) :
    (s.withView tt m).afterOperands n = (s.afterOperands n).withView tt m := rfl

theorem physRead_withView {s : State} {m : Memory} {a : Nat} (agree : m.read a = s.mem.read a) (tt : List TTEntry) :
    physRead (s.withView tt m) a = physRead s a := by
  simp only [physRead, State.withView, agree]

/-- A cycle whose attempt is the same but for the view ends the same but for the view. -/
theorem completeCycle_withView {s t : State} {tt : List TTEntry} {m : Memory} {r r' : Except Exc State}
    (same : r' = r.map (fun u => u.withView tt m)) (done : completeCycle s r = .next t) :
    completeCycle (s.withView tt m) r' = .next (t.withView tt m) := by
  subst same
  cases r <;> cases done <;> rfl

/-! ## Instructions that touch no memory -/

theorem registerOperation_withView (f : Word → Word → Word) (reg1 reg2 : Byte) (s : State) (tt : List TTEntry)
    (m : Memory) :
    registerOperation f reg1 reg2 (s.withView tt m) =
      (registerOperation f reg1 reg2 s).map (fun u => u.withView tt m) := by
  unfold registerOperation
  cases operandReg reg1 with
  | error e => rfl
  | ok d =>
    cases operandReg reg2 with
    | error e => rfl
    | ok r =>
      simp only [attempt_ok_bind, State.afterOperands_withView, State.readReg_withView, State.writeReg_withView]
      rfl

theorem execBeq_withView {s t : State} {reg1 reg2 addr : Byte} (tt : List TTEntry) (m : Memory)
    (done : execBeq reg1 reg2 addr s = .next t) :
    execBeq reg1 reg2 addr (s.withView tt m) = .next (t.withView tt m) := by
  refine completeCycle_withView ?_ done
  cases operandReg reg1 with
  | error e => rfl
  | ok a =>
    cases operandReg reg2 with
    | error e => rfl
    | ok b =>
      simp only [attempt_ok_bind, State.afterOperands_withView, State.readReg_withView, State.writeReg_withView]
      split <;> rfl

/-- A fault of the spec's list for STORE_WORD is the one that it takes. -/
theorem execStoreWord_traps {s : State} {reg addr : Byte} {e : Exc} (fault : LoadStoreFault s reg addr e) :
    execStoreWord reg addr s = .next (takeFault s e) := by
  refine completeCycle_next_iff.mpr (.inr ⟨e, ?_, rfl⟩)
  simp only [attempt_bind_error_iff, operandReg_error_iff, operandReg_ok_iff, memWriteWord_error_iff]
  rcases fault with bad | ⟨small, unmapped⟩ | ⟨small, outside⟩
  · exact .inl bad
  · obtain ⟨r, rfl⟩ := registerByte_iff.mp small
    exact .inr ⟨r, rfl, .inl unmapped⟩
  · obtain ⟨r, rfl⟩ := registerByte_iff.mp small
    exact .inr ⟨r, rfl, .inr outside⟩

/-! ## Reads and cycles under a view that translates alike and agrees on the reached cells -/

section
variable {s t : State} {tt : List TTEntry} {m : Memory}
  (table : ∀ la, translateAddr tt s.curPid la = translateAddr s.tt s.curPid la)
include table

theorem execStoreWord_withView {reg addr : Byte} (done : execStoreWord reg addr s = .next t) :
    CycleSeenThrough s t tt m (execStoreWord reg addr (s.withView tt m)) := by
  rcases execStoreWord_cases done with ⟨r, pa, rfl, placed, inside, -⟩ | ⟨e, fault, rfl⟩
  · have stored := exec_storeWord_completes r placed inside
    have storedView := exec_storeWord_completes (s := s.withView tt m) r ((table _).trans placed) inside
    rw [State.sourceValue_withView] at storedView
    cases stored.symm.trans done
    exact .inr ⟨operandAddr addr, pa, s.sourceValue 2 r, placed, rfl, storedView⟩
  · have faultView : LoadStoreFault (s.withView tt m) reg addr e := by
      simpa only [LoadStoreFault, State.withView, table] using fault
    exact .inl ⟨rfl, execStoreWord_traps faultView⟩

variable (agree : ∀ a, s.Reaches a → m.read a = s.mem.read a)
include agree

theorem memReadByte_withView (la : Word) : memReadByte (s.withView tt m) la = memReadByte s la := by
  unfold memReadByte
  rw [show translateAddr (s.withView tt m).tt (s.withView tt m).curPid la = _ from table la]
  cases placed : translateAddr s.tt s.curPid la with
  | error e => rfl
  | ok pa => exact physRead_withView (agree pa ⟨la, pa, placed, .inl rfl⟩) tt

theorem memReadWord_withView (la : Word) : memReadWord (s.withView tt m) la = memReadWord s la := by
  unfold memReadWord
  rw [show translateAddr (s.withView tt m).tt (s.withView tt m).curPid la = _ from table la]
  cases placed : translateAddr s.tt s.curPid la with
  | error e => rfl
  | ok pa =>
    have low := physRead_withView (agree pa ⟨la, pa, placed, .inl rfl⟩) tt
    have high := physRead_withView (agree (pa + 1) ⟨la, pa, placed, .inr rfl⟩) tt
    simp only [attempt_ok_bind, low, high]

theorem execLoadWord_withView {reg addr : Byte} (done : execLoadWord reg addr s = .next t) :
    execLoadWord reg addr (s.withView tt m) = .next (t.withView tt m) := by
  refine completeCycle_withView ?_ done
  have read : memReadWord ((s.afterOperands 2).withView tt m) (operandAddr addr) =
      memReadWord (s.afterOperands 2) (operandAddr addr) :=
    memReadWord_withView table agree (operandAddr addr)
  cases operandReg reg with
  | error e => rfl
  | ok r =>
    simp only [attempt_ok_bind, State.afterOperands_withView, read, State.writeReg_withView]
    cases memReadWord (s.afterOperands 2) (operandAddr addr) <;> rfl

theorem exec_withView {i : Instr} (done : exec i s = .next t) : CycleSeenThrough s t tt m (exec i (s.withView tt m)) := by
  by_cases store : ∃ reg addr, i = .storeWord reg addr
  · obtain ⟨reg, addr, rfl⟩ := store
    exact execStoreWord_withView table done
  · have kept : t.mem = s.mem :=
      (exec_mem_cases done).resolve_right fun ⟨reg, addr, _, _, isStore, _⟩ => store ⟨reg, addr, isStore⟩
    refine .inl ⟨kept, ?_⟩
    cases i with
    | loadWord reg addr => exact execLoadWord_withView table agree done
    | storeWord reg addr => exact absurd ⟨reg, addr, rfl⟩ store
    | add reg1 reg2 | sub reg1 reg2 => exact completeCycle_withView (registerOperation_withView _ reg1 reg2 s tt m) done
    | beq reg1 reg2 addr => exact execBeq_withView tt m done
    | halt => exact completeCycle_withView (s := s) (r := .ok s.stopCurrent) rfl done

/-- The step of a machine seen through the other table and memory is the step of the machine itself, seen so. -/
theorem step_withView (stepped : step s = .next t) : CycleSeenThrough s t tt m (step (s.withView tt m)) := by
  cases running : s.haltFlag with
  | true =>
    rw [step_halted running] at stepped
    cases stepped
    exact .inl ⟨rfl, step_halted running⟩
  | false =>
    have fetched : fetchInstr (s.withView tt m) = fetchInstr s :=
      fetchInstr_congr (memReadByte_withView table agree) rfl
    rw [step_running (s := s.withView tt m) running, fetched]
    rcases step_running_cases running stepped with ⟨i, ok, done⟩ | ⟨e, failed, rfl⟩
    · rw [ok]
      exact exec_withView table agree done
    · rw [failed]
      exact .inl ⟨rfl, rfl⟩

end

/-! ## The two statements -/

/-- No step changes the table: seen through its own table and memory, the machine is itself. -/
theorem step_keeps_tt {s t : State} (stepped : step s = .next t) : t.tt = s.tt := by
  have again : ∃ m, step s = .next (t.withView s.tt m) := by
    rcases step_withView (fun _ => rfl) (fun _ _ => rfl) stepped with ⟨-, seen⟩ | ⟨_, pa, v, -, -, seen⟩
    · exact ⟨s.mem, seen⟩
    · exact ⟨s.mem.writeWord pa v, seen⟩
  obtain ⟨m, again⟩ := again
  injection stepped.symm.trans again with same
  rw [same]
  rfl

/-- Settles O33: a table with the same entries of the current process translates alike, and memory is its own. -/
theorem otherProcessesEntriesAreIgnored : Obligations.OtherProcessesEntriesAreIgnored := by
  intro s t tt own stepped
  rcases step_withView (translateAddr_congr_own own) (fun _ _ => rfl) stepped with
    ⟨kept, seen⟩ | ⟨la, pa, v, -, written, seen⟩
  · exact seen.trans (by rw [← kept]; rfl)
  · exact seen.trans (by rw [← written]; rfl)

/-- Settles O34: the table is its own, and where the cycle stores a word its two cells are reached ones. -/
theorem unreachedCellsDoNotMatter : Obligations.UnreachedCellsDoNotMatter := by
  intro s t m agree stepped
  have table := step_keeps_tt stepped
  rcases step_withView (fun _ => rfl) agree stepped with ⟨kept, seen⟩ | ⟨la, pa, v, placed, written, seen⟩
  · refine ⟨_, seen, by rw [← table]; rfl, fun a reached => ?_, fun a _ => rfl⟩
    rw [kept]
    exact agree a reached
  · refine ⟨_, seen, by rw [← table]; rfl, fun a reached => ?_, fun a unreached => ?_⟩
    · show (m.writeWord pa v).read a = t.mem.read a
      rw [written, Memory.read_writeWord, Memory.read_writeWord, agree a reached]
    · have notLow : a ≠ pa := fun same => unreached ⟨la, pa, placed, .inl same⟩
      have notHigh : a ≠ pa + 1 := fun same => unreached ⟨la, pa, placed, .inr same⟩
      show (m.writeWord pa v).read a = m.read a
      rw [Memory.read_writeWord, if_neg notLow, if_neg notHigh]

end Sys2Proof.Machine
end

section
/-! SUPPORT. The loader: what one segment does, what a load that succeeds has done (`SegmentsLoaded`), and what the loaded
process then reads (spec/70_reset_and_hazards.md R169 to R173). -/

namespace Sys2Proof.Machine

/-! ## The image -/

theorem headerAt_target (image : List Byte) (k : Nat) :
    (headerAt image k).target.toNat = (image.getD (1 + 3 * k) 0).toNat % 128 := by
  simp [headerAt]

/-- In a valid image every header's payload lies inside the image. -/
theorem imageValid_payload {image : List Byte} {k : Nat} (valid : imageValid image = true)
    (inCount : k < segmentCount image) :
    payloadStart image (headerAt image k) + (headerAt image k).length.toNat ≤ image.length := by
  simp only [imageValid, Bool.and_eq_true, List.all_eq_true, decide_eq_true_eq] at valid
  exact valid.2 _ (List.mem_map.mpr ⟨k, List.mem_range.mpr inCount, rfl⟩)

/-- Byte `i` of a payload that lies inside the image. -/
theorem payload_getD {image : List Byte} {h : SegmentHeader} {i : Nat}
    (inside : payloadStart image h + h.length.toNat ≤ image.length) (short : i < h.length.toNat) (other : Byte) :
    (payload image h).getD i other = image.getD (payloadStart image h + i) 0 := by
  have inImage : payloadStart image h + i < image.length := by omega
  simp [payload, List.getD_eq_getElem?_getD, short, inImage]

/-! ## One segment -/

/-- What loading one segment does, cell by cell: a run of free cells is occupied and holds the payload, its entry is
appended to the table, and all else is kept. -/
theorem loadSegment_effect {image : List Byte} {pid : Nat} {s t : State} {h : SegmentHeader}
    (inside : payloadStart image h + h.length.toNat ≤ image.length) (done : loadSegment image pid s h = some t) :
    ∃ pb, pb + h.length.toNat ≤ s.physSize ∧ (∀ i < h.length.toNat, pb + i ∉ s.occ) ∧
      t.tt = s.tt ++ [{ pid := pid, logicalBase := h.target.toNat, length := h.length.toNat, physicalBase := pb }] ∧
      (∀ a, a ∈ t.occ ↔ (pb ≤ a ∧ a < pb + h.length.toNat) ∨ a ∈ s.occ) ∧
      (∀ i < h.length.toNat, t.mem.read (pb + i) = image.getD (payloadStart image h + i) 0) ∧
      (∀ a, ¬ (pb ≤ a ∧ a < pb + h.length.toNat) → t.mem.read a = s.mem.read a) ∧
      t = { s with tt := t.tt, mem := t.mem, occ := t.occ } := by
  obtain ⟨pb, allocated, rfl⟩ := loadSegment_eq_some done
  obtain ⟨fits, free, -, -⟩ := allocate_eq_some allocated
  refine ⟨pb, fits, free, rfl, fun a => mem_occMarkRange, fun i short => ?_, fun a outside => ?_, rfl⟩
  · rw [Memory.read_writeBytes, if_pos (Nat.le_add_right pb i), Nat.add_sub_cancel_left, payload_getD inside short]
  · rw [Memory.read_writeBytes]
    split_ifs with above
    · have length := payload_length_le image h
      rw [List.getD_eq_default _ _ (by omega)]
    · rfl

/-! ## The segments up to one -/

/-- What `SegmentsLoaded` says of the cells of one segment: they were free, are occupied and hold the payload. -/
def SegmentPlaced (s t : State) (image : List Byte) (j : Nat) (e : TTEntry) : Prop :=
  e.physicalBase + e.length ≤ s.physSize ∧ ∀ i, i < e.length →
    e.physicalBase + i ∉ s.occ ∧ e.physicalBase + i ∈ t.occ ∧
      t.mem.read (e.physicalBase + i) =
        image.getD (1 + 3 * (image.getD 0 0).toNat + (image.getD (3 + 3 * j) 0).toNat + i) 0

/-- A placed segment stays placed while the occupied cells stay occupied and are not written. -/
theorem SegmentPlaced.mono {s u t : State} {image : List Byte} {j : Nat} {e : TTEntry} (placed : SegmentPlaced s u image j e)
    (survives : ∀ a ∈ u.occ, a ∈ t.occ ∧ t.mem.read a = u.mem.read a) : SegmentPlaced s t image j e := by
  refine ⟨placed.1, fun i short => ?_⟩
  obtain ⟨wasFree, taken, read⟩ := placed.2 i short
  exact ⟨wasFree, (survives _ taken).1, (survives _ taken).2.trans read⟩

/-- The load of `image` that began in `s` has done its segments `0` to `k - 1` in `u`, and has changed nothing but the
process records, the next id, the table, memory and the markers. -/
structure LoadedUpTo (s u : State) (image : List Byte) (k : Nat) : Prop where
  segments : SegmentsLoaded s u image k
  frame : u = { createProcess s with tt := u.tt, mem := u.mem, occ := u.occ }

theorem loadedUpTo_zero (s : State) (image : List Byte) : LoadedUpTo s (createProcess s) image 0 where
  segments := ⟨[], by simp, rfl, by simp, by simp, fun _ _ => rfl⟩
  frame := rfl

/-- Loading the next segment: its cells were free, so the payloads and the occupied cells from before are as they
were. -/
theorem LoadedUpTo.succ {s u t : State} {image : List Byte} {k : Nat} (before : LoadedUpTo s u image k)
    (inside : payloadStart image (headerAt image k) + (headerAt image k).length.toNat ≤ image.length)
    (done : loadSegment image s.nextPid u (headerAt image k) = some t) : LoadedUpTo s t image (k + 1) := by
  obtain ⟨⟨entries, table, fields, placed, occupied, kept⟩, frame⟩ := before
  obtain ⟨pb, fits, free, tableNext, occupiedNext, payloadRead, keptNext, frameNext⟩ := loadSegment_effect inside done
  have size : u.physSize = s.physSize := by rw [frame]; rfl
  have count : entries.length = k := by simpa using congrArg List.length fields
  have fresh : ∀ a ∈ u.occ, ¬ (pb ≤ a ∧ a < pb + (headerAt image k).length.toNat) := by
    intro a taken range
    obtain ⟨i, rfl⟩ := Nat.exists_eq_add_of_le range.1
    exact free i (by omega) taken
  have survives : ∀ a ∈ u.occ, a ∈ t.occ ∧ t.mem.read a = u.mem.read a := fun a taken =>
    ⟨(occupiedNext a).mpr (.inr taken), keptNext a (fresh a taken)⟩
  have earlier : ∀ a ∈ s.occ, a ∈ u.occ := fun a taken => (occupied a).mpr (.inl taken)
  refine ⟨⟨entries ++ [_], by rw [tableNext, table, List.append_assoc], ?_, fun j e entry => ?_, fun a => ?_,
    fun a unmoved => ?_⟩, by rw [frameNext, frame]⟩
  · rw [List.map_append, fields, List.range_succ, List.map_append, List.map_singleton, List.map_singleton, headerAt_target]
    rfl
  · rcases Nat.lt_trichotomy j k with old | rfl | past
    · rw [List.getElem?_append_left (by omega)] at entry
      exact SegmentPlaced.mono (placed j e entry) survives
    · rw [List.getElem?_append_right (by omega), count, Nat.sub_self] at entry
      cases entry
      exact ⟨size ▸ fits, fun i short => ⟨fun taken => free i short (earlier _ taken),
        (occupiedNext _).mpr (.inl ⟨Nat.le_add_right pb i, Nat.add_lt_add_left short pb⟩), payloadRead i short⟩⟩
    · rw [List.getElem?_eq_none (by simp only [List.length_append, List.length_singleton]; omega)] at entry
      cases entry
  · rw [occupiedNext, occupied]
    simp only [List.mem_append, List.mem_singleton, or_and_right, exists_or, exists_eq_left]
    exact or_comm.trans or_assoc
  · rcases unmoved with taken | stillFree
    · exact (survives a (earlier a taken)).2.trans (kept a (.inl taken))
    · rw [occupiedNext, not_or] at stillFree
      exact (keptNext a stillFree.1).trans (kept a (.inr stillFree.2))

/-- The segments from `k` on, where those before it have been done. -/
theorem LoadedUpTo.rest {s u t : State} {image : List Byte} {pid k m : Nat} (valid : imageValid image = true)
    (all : k + m = segmentCount image) (before : LoadedUpTo s u image k)
    (done : loadSegments image s.nextPid ((List.range' k m).map (headerAt image)) u = .loaded pid t) :
    pid = s.nextPid ∧ LoadedUpTo s t image (segmentCount image) := by
  induction m generalizing u k with
  | zero =>
    cases done
    exact ⟨rfl, all ▸ before⟩
  | succ m ih =>
    rw [List.range'_succ, List.map_cons, loadSegments] at done
    cases next : loadSegment image s.nextPid u (headerAt image k) with
    | none =>
      rw [next] at done
      cases done
    | some v =>
      rw [next] at done
      exact ih (by omega) (before.succ (imageValid_payload valid (by omega)) next) done

/-- Everything a load that succeeds has done. -/
theorem load_loaded {s t : State} {image : List Byte} {pid : Nat} (done : load s image = .loaded pid t) :
    pid = s.nextPid ∧ LoadedUpTo s t image (segmentCount image) := by
  rw [load] at done
  split_ifs at done with valid
  rw [imageHeaders, List.range_eq_range'] at done
  exact (loadedUpTo_zero s image).rest valid (Nat.zero_add _) done

/-! ## What the loaded process reads -/

/-- The owner, base and length of segment `j`'s entry, as `SegmentsLoaded` gives them. -/
def segmentFields (image : List Byte) (pid j : Nat) : Nat × Nat × Nat :=
  (pid, (image.getD (1 + 3 * j) 0).toNat % 128, (image.getD (2 + 3 * j) 0).toNat)

/-- Whether the entry of a segment contains an address. -/
theorem segmentEntry_hits_iff {entries : List TTEntry} {image : List Byte} {pid n j : Nat} {e : TTEntry} {la : Word}
    (fields : entries.map (fun e => (e.pid, e.logicalBase, e.length)) = (List.range n).map (segmentFields image pid))
    (entry : entries[j]? = some e) :
    j < n ∧ e.logicalBase = (image.getD (1 + 3 * j) 0).toNat % 128 ∧ e.length = (image.getD (2 + 3 * j) 0).toNat ∧
      (e.hits pid la = true ↔ (image.getD (1 + 3 * j) 0).toNat % 128 ≤ la.toNat ∧
        la.toNat < (image.getD (1 + 3 * j) 0).toNat % 128 + (image.getD (2 + 3 * j) 0).toNat) := by
  have inRange : j < n := by
    have count : entries.length = n := by simpa using congrArg List.length fields
    exact count ▸ (List.getElem?_eq_some_iff.mp entry).1
  have here := congrArg (fun l => l[j]?) fields
  simp only [List.getElem?_map, entry, List.getElem?_range inRange, Option.map_some, Option.some.injEq, segmentFields,
    Prod.mk.injEq] at here
  obtain ⟨owner, base, length⟩ := here
  exact ⟨inRange, base, length, by rw [TTEntry.hits_iff, owner, base, length]; simp⟩

/-- Settles O55: of all entries only segment `k`'s own contains the address, which it places in its run of cells, where
the load has left the payload. -/
theorem loadRoundTrip : Obligations.LoadRoundTrip := by
  intro s t image pid k j noEntry done inCount short apart
  obtain ⟨rfl, ⟨entries, table, fields, placed, -, -⟩, frame⟩ := load_loaded done
  have size : t.physSize = s.physSize := by rw [frame]; rfl
  have place : k < entries.length := by
    have count : entries.length = segmentCount image := by simpa using congrArg List.length fields
    exact count ▸ inCount
  have entry : entries[k]? = some entries[k] := List.getElem?_eq_getElem place
  have address : (BitVec.ofNat 16 ((image.getD (1 + 3 * k) 0).toNat % 128 + j)).toNat =
      (image.getD (1 + 3 * k) 0).toNat % 128 + j := by
    rw [BitVec.toNat_ofNat]
    omega
  generalize BitVec.ofNat 16 ((image.getD (1 + 3 * k) 0).toNat % 128 + j) = la at address ⊢
  obtain ⟨-, base, length, hits⟩ := segmentEntry_hits_iff (la := la) fields entry
  obtain ⟨bound, cells⟩ := placed k _ entry
  have own : translateAddr t.tt s.nextPid la = translateAddr entries s.nextPid la := by
    have foreign : s.tt.filter (fun e => e.hits s.nextPid la) = [] :=
      List.filter_eq_nil_iff.mpr fun e member hit => noEntry e member (TTEntry.hits_iff.mp hit).1
    exact translateAddr_congr (by rw [table, List.filter_append, foreign, List.nil_append])
  have only : translateAddr entries s.nextPid la = .ok (entries[k].physicalBase + j) := by
    rw [translateAddr_of_getElem? entry (hits.mpr (by omega)) fun k' f entry' other => ?_, base, address,
      Nat.add_sub_cancel_left]
    obtain ⟨inCount', -, -, hits'⟩ := segmentEntry_hits_iff (la := la) fields entry'
    have := apart k' inCount' other
    rw [Bool.eq_false_iff, Ne, hits']
    omega
  exact ⟨_, own.trans only, by omega, (cells j (by omega)).2.2⟩

end Sys2Proof.Machine
end

section
/-! SUPPORT. Decode and encode: each undoes the other, over a list of bytes and in the opcode table's numbering
(spec/30_encoding.md R60 to R68). -/

namespace Sys2Proof

/-! ## Over a list of bytes -/

theorem listByte_eq_ok {bytes : List Byte} {k : Nat} {b : Byte} : listByte bytes k = .ok b ↔ bytes[k]? = some b := by
  unfold listByte
  cases bytes[k]? <;> simp

/-- A list of bytes decodes to the instruction whose encoding it begins with, and what follows is left. -/
theorem decode_encode_append (i : Instr) (rest : List Byte) : decode (encode i ++ rest) = .ok (i, rest) := by
  have decoded : decodeWith .invalidOpcode (listByte (encode i ++ rest)) = .ok i :=
    decodeWith_encode _ _ i fun k b own => by
      obtain ⟨inside, -⟩ := List.getElem?_eq_some_iff.mp own
      rw [listByte_eq_ok, List.getElem?_append_left inside, own]
  simp only [decode, decoded, ← encode_length, List.drop_left]

/-- The decoder has read the encoding byte by byte, and the rest is what it has not read. -/
theorem decode_eq_ok {bytes rest : List Byte} {i : Instr} :
    decode bytes = .ok (i, rest) ↔ bytes = encode i ++ rest := by
  constructor
  · intro decoded
    unfold decode at decoded
    split at decoded
    next j read =>
      cases decoded
      have begins : encode i <+: bytes := List.prefix_iff_getElem?.mpr fun k inside =>
        listByte_eq_ok.mp (decodeWith_ok read k _ (List.getElem?_eq_getElem inside))
      rw [← encode_length]
      exact (List.prefix_iff_eq_append.mp begins).symm
    next => cases decoded
  · rintro rfl
    exact decode_encode_append i rest

/-- Settles O3: the decoder answers an instruction only where it has read that instruction's encoding. -/
theorem decodedBytesAreTheEncoding : Obligations.DecodedBytesAreTheEncoding :=
  fun _ _ _ decoded => decode_eq_ok.mp decoded

/-! ## In the opcode table's numbering -/

theorem bytesToNat_lt (bytes : List Byte) : bytesToNat bytes < 2 ^ (8 * bytes.length) := by
  induction bytes with
  | nil => simp [bytesToNat]
  | cons b bs ih =>
    rw [bytesToNat, List.length_cons, Nat.mul_add_one, Nat.pow_add]
    have := b.isLt
    omega

/-- Dividing by 256 drops the first byte, so byte `k` is the low byte of the number after `k` divisions. -/
theorem byte_of_bytesToNat {bytes : List Byte} {k : Nat} {b : Byte} (own : bytes[k]? = some b) :
    BitVec.ofNat 8 (bytesToNat bytes / 256 ^ k) = b := by
  induction bytes generalizing k with
  | nil => cases own
  | cons c bs ih =>
    cases k with
    | zero =>
      cases own
      apply BitVec.eq_of_toNat_eq
      rw [BitVec.toNat_ofNat, bytesToNat]
      have := b.isLt
      omega
    | succ k =>
      have shift : bytesToNat (c :: bs) / 256 = bytesToNat bs := by
        rw [bytesToNat]
        have := c.isLt
        omega
      rw [Nat.pow_succ', ← Nat.div_div_eq_div_mul, shift]
      exact ih own

theorem tableWordBytes_getElem? {nbits w k : Nat} (inside : k < 4) :
    (tableWordBytes nbits w)[k]? = some (BitVec.ofNat 8 (w % 2 ^ nbits / 256 ^ k)) := by
  unfold tableWordBytes
  interval_cases k <;> simp

/-- The bytes of a number in the table's numbering begin with the bytes the number was made from. -/
theorem prefix_tableWordBytes {bytes : List Byte} (short : bytes.length ≤ 4) :
    bytes <+: tableWordBytes (8 * bytes.length) (bytesToNat bytes) := by
  refine List.prefix_iff_getElem?.mpr fun k inside => ?_
  rw [tableWordBytes_getElem? (by omega), Nat.mod_eq_of_lt (bytesToNat_lt bytes),
    byte_of_bytesToNat (List.getElem?_eq_getElem inside)]

theorem encode_length_le (i : Instr) : (encode i).length ≤ 4 := by
  cases i <;> simp [encode]

theorem decodeTableWord_encode (i : Instr) : decodeTableWord (8 * i.length) (bytesToNat (encode i)) = some i := by
  obtain ⟨rest, bytes⟩ := prefix_tableWordBytes (encode_length_le i)
  rw [decodeTableWord, ← encode_length, ← bytes, decode_encode_append]

/-- Settles O2: the number's bytes begin with the encoding, and the decoder reads no more than that. -/
theorem encodedWordDecodesBack : Obligations.EncodedWordDecodesBack :=
  decodeTableWord_encode

/-- Settles O1: each accepted word is an encoding, with what follows it; the two rejected ones are evaluated. -/
theorem specWordsDecode : Obligations.SpecWordsDecode :=
  ⟨decode_encode_append (.loadWord 1 0x10) [], decode_encode_append (.storeWord 1 0x0E) [0xFF],
    decode_encode_append (.add 1 2) [], decode_encode_append (.sub 2 0) [], decode_encode_append (.beq 1 2 0x0A) [],
    decode_encode_append .halt [0x05], by decide, by decide, decodeTableWord_encode (.loadWord 2 0x10),
    decodeTableWord_encode (.beq 1 2 0x0A)⟩

end Sys2Proof
end

section
/-! SUPPORT. The fetch of an instruction, byte by byte: what the decoder answers when a byte cannot be fetched, and the
step that follows a fetch (spec/40_execution_loop.md R81 to R83, R87, R88). -/

namespace Sys2Proof.Machine

/-! ## The step, by what the fetch answers -/

theorem step_of_fetched {s : State} {i : Instr} (running : s.Running) (fetched : fetchInstr s = .ok i) :
    step s = exec i s := by
  rw [step_running running, fetched]

/-- Taking a fault is the fault entry of the statements (spec/60_exceptions.md R140). -/
theorem takeFault_eq_faultEntry (s : State) (e : Exc) : takeFault s e = faultEntry s e.cause e.info := rfl

theorem step_of_fetch_error {s : State} {e : Exc} (running : s.Running) (failed : fetchInstr s = .error e) :
    step s = .next (faultEntry s e.cause e.info) := by
  rw [step_running running, failed]
  exact congrArg _ (takeFault_eq_faultEntry s e)

/-- Settles O4: the bytes begin with the encoding of the instruction, so the fetch reads that encoding. -/
theorem stepRunsTheDecodedInstruction : Obligations.StepRunsTheDecodedInstruction := by
  intro s i bytes rest running decoded read
  obtain rfl := decode_eq_ok.mp decoded
  refine step_of_fetched running (fetchInstr_of_bytes fun k b own => ?_)
  obtain ⟨inside, -⟩ := List.getElem?_eq_some_iff.mp own
  exact read k b (encode_length i ▸ inside) (by rw [List.getElem?_append_left inside, own])

/-! ## A byte that cannot be fetched -/

@[simp] theorem fetchByte_zero (s : State) : fetchByte s 0 = memReadByte s s.pc :=
  congrArg (memReadByte s) (BitVec.add_zero s.pc)

theorem fetchInstr_opcode_error {s : State} {e : Exc} (failed : memReadByte s s.pc = .error e) :
    fetchInstr s = .error e := by
  simp [fetchInstr, decodeWith, failed]

/-- The decoder reads the operand bytes in order and answers the first failure, at byte 1, 2 or 3; only BEQ has a
byte 3. -/
theorem fetchInstr_operand_error {s : State} {op : Byte} {o : Opcode} {k : Nat} {e : Exc}
    (opcode : memReadByte s s.pc = .ok op) (selected : Opcode.ofByte? op = some o)
    (lower : 1 ≤ k) (upper : k ≤ o.operandCount)
    (before : ∀ j, 1 ≤ j → j < k → ∃ b, memReadByte s (s.pc + BitVec.ofNat 16 j) = .ok b)
    (failed : memReadByte s (s.pc + BitVec.ofNat 16 k) = .error e) : fetchInstr s = .error e := by
  simp only [← fetchByte_eq] at before failed
  have operands : o.operandCount ≤ 3 := by cases o <;> decide
  obtain rfl | rfl | rfl : k = 1 ∨ k = 2 ∨ k = 3 := by omega
  · cases o with
    | halt => cases upper
    | _ => simp [fetchInstr, decodeWith, opcode, selected, failed]
  · obtain ⟨b1, first⟩ := before 1 (by decide) (by decide)
    cases o with
    | halt => cases upper
    | _ => simp [fetchInstr, decodeWith, opcode, selected, first, failed]
  · obtain ⟨b1, first⟩ := before 1 (by decide) (by decide)
    obtain ⟨b2, second⟩ := before 2 (by decide) (by decide)
    cases o with
    | beq => simp [fetchInstr, decodeWith, opcode, selected, first, second, failed]
    | _ => exact absurd upper (by decide)

/-! ## The fault that the step takes -/

/-- A step that takes whatever fault the fetch at `la` raises takes one of two: no translation, or a cell outside
memory (spec/60_exceptions.md R139). -/
theorem step_fetch_faults {s : State} {la : Word}
    (taken : ∀ e, memReadByte s la = .error e → step s = .next (faultEntry s e.cause e.info)) :
    (∀ e, translateAddr s.tt s.curPid la = .error e → step s = .next (faultEntry s .translationFault la.toNat)) ∧
    (∀ pa, translateAddr s.tt s.curPid la = .ok pa → s.physSize ≤ pa →
      step s = .next (faultEntry s .physicalRangeFault pa)) := by
  constructor
  · intro e failed
    obtain ⟨-, rfl⟩ := translateAddr_error_iff.mp failed
    exact taken _ (memReadByte_error_iff.mpr (.inl failed))
  · intro pa placed outside
    exact taken (.physicalRangeFault pa) (memReadByte_error_iff.mpr (.inr ⟨pa, placed, outside, rfl⟩))

/-- Settles O8: the step takes the fault of the first fetch, which is at PC. -/
theorem opcodeFetchFaults : Obligations.OpcodeFetchFaults :=
  ⟨rfl, rfl, fun _ running =>
    step_fetch_faults fun _ failed => step_of_fetch_error running (fetchInstr_opcode_error failed)⟩

/-- Settles O10: the fetches before byte `k` succeed, so the step takes the fault of the fetch of byte `k`. -/
theorem operandFetchFaults : Obligations.OperandFetchFaults := by
  intro s op o k running opcode selected lower upper before
  have address : (s.pc + BitVec.ofNat 16 k).toNat = (s.pc.toNat + k) % 65536 := by
    rw [BitVec.toNat_add, BitVec.toNat_ofNat, Nat.add_mod_mod]
  rw [← address]
  exact step_fetch_faults fun e failed =>
    step_of_fetch_error running (fetchInstr_operand_error opcode selected lower upper before failed)

end Sys2Proof.Machine
end

section
/-! SUPPORT. LOAD_WORD and STORE_WORD: where they complete, where they trap, their rules from the opcode fetch on, and
their frames (spec/41_load_store.md R100, R101). -/

namespace Sys2Proof.Machine

/-! ## Completion -/

theorem lowByte_eq_ofNat (v : Word) : lowByte v = BitVec.ofNat 8 v.toNat := by
  apply BitVec.eq_of_toNat_eq
  simp [lowByte, BitVec.extractLsb'_toNat]

theorem highByte_eq_ofNat (v : Word) : highByte v = BitVec.ofNat 8 (v.toNat / 256) := by
  apply BitVec.eq_of_toNat_eq
  simp [highByte, BitVec.extractLsb'_toNat, Nat.shiftRight_eq_div_pow]

/-- Settles O18: `exec_loadWord_completes`, with the address in the statement's words. -/
theorem loadWordCompletes : Obligations.LoadWordCompletes := by
  intro s r addr pa placed inside
  rw [ofNat_addr_eq] at placed
  exact exec_loadWord_completes r placed inside

/-- Settles O19: `exec_storeWord_completes`, with the word's two bytes written as numbers. -/
theorem storeWordCompletes : Obligations.StoreWordCompletes := by
  intro s r addr pa placed inside
  rw [ofNat_addr_eq] at placed
  rw [exec_storeWord_completes r placed inside, Memory.writeWord, lowByte_eq_ofNat, highByte_eq_ofNat]

/-! ## Traps -/

@[simp] theorem toNat_operandAddr (addr : Byte) : (operandAddr addr).toNat = addr.toNat := by
  simp only [operandAddr, zext16, BitVec.toNat_setWidth]
  omega

/-- Each fault of the spec's list is a failure of the register check, or of the access that follows it. -/
theorem LoadStoreFault.fails {s : State} {reg addr : Byte} {e : Exc} (fault : LoadStoreFault s reg addr e) :
    operandReg reg = .error e ∨
      ∃ r : Reg, reg = r.toByte ∧ memReadWord (s.afterOperands 2) (operandAddr addr) = .error e := by
  rcases fault with bad | ⟨small, unmapped⟩ | ⟨small, outside⟩
  · exact .inl (operandReg_error_iff.mpr bad)
  · obtain ⟨r, rfl⟩ := registerByte_iff.mp small
    exact .inr ⟨r, rfl, memReadWord_error_iff.mpr (.inl unmapped)⟩
  · obtain ⟨r, rfl⟩ := registerByte_iff.mp small
    exact .inr ⟨r, rfl, memReadWord_error_iff.mpr (.inr outside)⟩

/-- A fault of the spec's list for LOAD_WORD is the one that it takes. -/
theorem execLoadWord_traps {s : State} {reg addr : Byte} {e : Exc} (fault : LoadStoreFault s reg addr e) :
    execLoadWord reg addr s = .next (takeFault s e) := by
  rcases fault.fails with bad | ⟨r, rfl, failed⟩
  · simp only [execLoadWord, bad, attempt_error_bind, completeCycle_error]
  · simp only [execLoadWord, operandReg_toByte, attempt_ok_bind, failed, attempt_error_bind, completeCycle_error]

theorem exec_loadStore_traps {s : State} {reg addr : Byte} {i : Instr} {e : Exc}
    (form : i = .loadWord reg addr ∨ i = .storeWord reg addr) (fault : LoadStoreFault s reg addr e) :
    exec i s = .next (faultEntry s e.cause e.info) := by
  rcases form with rfl | rfl
  · exact execLoadWord_traps fault
  · exact execStoreWord_traps fault

/-- Settles O22: each clause is one fault of `LoadStoreFault`, which both instructions take. -/
theorem loadStoreTraps : Obligations.LoadStoreTraps := by
  intro s reg addr i form
  rw [ofNat_addr_eq]
  refine ⟨fun bad => exec_loadStore_traps form (.inl ⟨bad, rfl⟩), fun small e unmapped => ?_,
    fun small pa placed => ⟨fun outside => ?_, fun last => ?_⟩⟩
  · obtain ⟨-, rfl⟩ := translateAddr_error_iff.mp unmapped
    rw [exec_loadStore_traps form (.inr (.inl ⟨small, unmapped⟩)), Exc.info, toNat_operandAddr, Exc.cause]
  · exact exec_loadStore_traps form (.inr (.inr ⟨small, pa, placed, .inl ⟨outside, rfl⟩⟩))
  · exact exec_loadStore_traps form (.inr (.inr ⟨small, pa, placed, .inr ⟨last, rfl⟩⟩))

/-! ## The rules from the opcode fetch on -/

/-- The fetch clauses of a three-byte instruction: the fault of the first fetch that fails, and the instruction's meaning
when none does (spec/40_execution_loop.md R81 to R83, R88). -/
theorem step_three_byte_rule {s : State} {o : Opcode} {instr : Byte → Byte → Instr} {Q : Byte → Byte → Prop}
    (running : s.Running) (operands : o.operandCount = 2)
    (encoded : ∀ b1 b2, encode (instr b1 b2) = [o.toByte, b1, b2])
    (executed : ∀ b1 b2, step s = exec (instr b1 b2) s → Q b1 b2) :
    (∀ e, memReadByte s s.pc = .error e → step s = .next (faultEntry s e.cause e.info)) ∧
    (memReadByte s s.pc = .ok o.toByte →
    (∀ e, memReadByte s (s.pc + 1) = .error e → step s = .next (faultEntry s e.cause e.info)) ∧
    ∀ b1, memReadByte s (s.pc + 1) = .ok b1 →
    (∀ e, memReadByte s (s.pc + 2) = .error e → step s = .next (faultEntry s e.cause e.info)) ∧
    ∀ b2, memReadByte s (s.pc + 2) = .ok b2 → Q b1 b2) := by
  refine ⟨fun e failed => step_of_fetch_error running (fetchInstr_opcode_error failed), fun opcode => ?_⟩
  have selected := Opcode.ofByte?_toByte o
  refine ⟨fun e failed => ?_, fun b1 first => ⟨fun e failed => ?_, fun b2 second => ?_⟩⟩
  · exact step_of_fetch_error running (fetchInstr_operand_error opcode selected (k := 1) le_rfl (by omega)
      (fun j lower below => by omega) failed)
  · refine step_of_fetch_error running (fetchInstr_operand_error opcode selected (k := 2) (by omega) (by omega)
      (fun j lower below => ?_) failed)
    obtain rfl : j = 1 := by omega
    exact ⟨b1, first⟩
  · refine executed b1 b2 (step_of_fetched running (fetchInstr_of_bytes fun k b own => ?_))
    rw [encoded] at own
    match k, own with
    | 0, rfl => exact (fetchByte_zero s).trans opcode
    | 1, rfl => exact first
    | 2, rfl => exact second

/-- The clauses of LOAD_WORD and STORE_WORD after the fetches: the four traps in order, and what completion gives. -/
theorem exec_loadStore_rule {s : State} {reg addr : Byte} {i : Instr} {C : Reg → Nat → Prop}
    (form : i = .loadWord reg addr ∨ i = .storeWord reg addr)
    (completes : ∀ r pa, reg = r.toByte → translateAddr s.tt s.curPid (BitVec.ofNat 16 addr.toNat) = .ok pa →
      pa + 1 < s.physSize → C r pa) :
    (2 < reg.toNat → exec i s = .next (faultEntry s .invalidRegister reg.toNat)) ∧
    ∀ r : Reg, reg = r.toByte →
    (∀ e, translateAddr s.tt s.curPid (BitVec.ofNat 16 addr.toNat) = .error e →
      exec i s = .next (faultEntry s .translationFault addr.toNat)) ∧
    ∀ pa, translateAddr s.tt s.curPid (BitVec.ofNat 16 addr.toNat) = .ok pa →
    (s.physSize ≤ pa → exec i s = .next (faultEntry s .physicalRangeFault pa)) ∧
    (pa < s.physSize → s.physSize ≤ pa + 1 → exec i s = .next (faultEntry s .physicalRangeFault (pa + 1))) ∧
    (pa + 1 < s.physSize → C r pa) := by
  obtain ⟨bad, unmapped, outside⟩ := loadStoreTraps s reg addr i form
  refine ⟨bad, fun r named => ?_⟩
  have small : reg.toNat ≤ 2 := registerByte_iff.mpr ⟨r, named⟩
  refine ⟨unmapped small, fun pa placed => ?_⟩
  obtain ⟨low, last⟩ := outside small pa placed
  exact ⟨low, fun first second => last (by omega), completes r pa named placed⟩

/-- Settles O12: the fetch clauses, then the traps, then `loadWordCompletes`. -/
theorem loadWordFollowsItsRule : Obligations.LoadWordFollowsItsRule := by
  intro s running
  refine step_three_byte_rule (o := .loadWord) (instr := .loadWord) running rfl (fun _ _ => rfl) fun reg addr run => ?_
  rw [run]
  refine exec_loadStore_rule (.inl rfl) fun r pa named placed inside => ?_
  rw [named]
  exact loadWordCompletes s r addr pa placed inside

/-- Settles O13: the fetch clauses, then the traps, then `storeWordCompletes`, whose memory is read cell by cell. -/
theorem storeWordFollowsItsRule : Obligations.StoreWordFollowsItsRule := by
  intro s running
  refine step_three_byte_rule (o := .storeWord) (instr := .storeWord) running rfl (fun _ _ => rfl) fun reg addr run => ?_
  rw [run]
  refine exec_loadStore_rule (.inr rfl) fun r pa named placed inside => ?_
  rw [named]
  refine ⟨_, storeWordCompletes s r addr pa placed inside, rfl, fun a => ?_⟩
  rw [← lowByte_eq_ofNat, ← highByte_eq_ofNat]
  exact Memory.read_writeWord s.mem pa a (s.sourceValue 2 r)

/-! ## Frames -/

theorem faultTaken_takeFault (s : State) (e : Exc) : FaultTaken s (takeFault s e) := ⟨e.cause_ne_none, rfl⟩

theorem sameSurroundings_takeFault (s : State) (e : Exc) : SameSurroundings s (takeFault s e) :=
  ⟨rfl, rfl, rfl, rfl, rfl, rfl⟩

/-- A cycle that only writes a result to a register keeps the surroundings and the control state. -/
theorem writeReg_cycle_frame (s : State) (n : Nat) (d : Reg) (v : Word) :
    SameSurroundings s (((s.afterOperands n).writeReg d v).advancePc 1) ∧
      SameControl s (((s.afterOperands n).writeReg d v).advancePc 1) := by
  cases d <;> exact ⟨⟨rfl, rfl, rfl, rfl, rfl, rfl⟩, rfl, rfl, rfl, rfl⟩

theorem namesDestination_loadWord_iff {reg addr : Byte} {q : Reg} :
    NamesDestination (.loadWord reg addr) q ↔ reg = q.toByte := by
  simp [NamesDestination]

theorem not_namesDestination_storeWord (reg addr : Byte) (q : Reg) : ¬ NamesDestination (.storeWord reg addr) q := by
  simp [NamesDestination]

/-- Settles O23: the registers by `exec_keeps_reg` and memory by `exec_mem_cases`; the rest is what a cycle that writes a
register, or takes a fault, keeps. -/
theorem loadWordFrame : Obligations.LoadWordFrame := by
  intro s t reg addr done
  have keeps (q : Reg) (general : q ≠ .pc) (other : reg ≠ q.toByte) : t.readReg q = s.readReg q :=
    exec_keeps_reg general (mt namesDestination_loadWord_iff.mp other) done
  have mem : t.mem = s.mem := (exec_mem_cases done).resolve_right (by simp)
  refine ⟨keeps .r1 (by decide), keeps .r2 (by decide), fun a => by rw [mem], ?_⟩
  rcases execLoadWord_cases done with ⟨r, pa, -, -, -, rfl⟩ | ⟨e, -, rfl⟩
  · obtain ⟨surroundings, control⟩ := writeReg_cycle_frame s 2 r (wordOfBytes (s.mem.read pa) (s.mem.read (pa + 1)))
    exact ⟨surroundings, .inl control⟩
  · exact ⟨sameSurroundings_takeFault s e, .inr (faultTaken_takeFault s e)⟩

/-- Settles O24: a store that completes has written one word at its address's only translation; one that faults has
written nothing. -/
theorem storeWordFrame : Obligations.StoreWordFrame := by
  intro s t reg addr done
  have keeps (q : Reg) (general : q ≠ .pc) : t.readReg q = s.readReg q :=
    exec_keeps_reg general (not_namesDestination_storeWord reg addr q) done
  refine ⟨keeps .r1 (by decide), keeps .r2 (by decide), ?_⟩
  rcases execStoreWord_cases done with ⟨r, pa, -, placed, -, rfl⟩ | ⟨e, -, rfl⟩
  · refine ⟨fun pa' placed' a low high => ?_, fun e unmapped => ?_, ⟨rfl, rfl, rfl, rfl, rfl, rfl⟩,
      .inl ⟨rfl, rfl, rfl, rfl⟩⟩
    · obtain rfl : pa = pa' := Except.ok.inj (placed.symm.trans placed')
      exact (Memory.read_writeWord s.mem pa a _).trans (by rw [if_neg low, if_neg high])
    · cases placed.symm.trans unmapped
  · exact ⟨fun _ _ _ _ _ => rfl, fun _ _ _ => rfl, sameSurroundings_takeFault s e,
      .inr ⟨faultTaken_takeFault s e, fun _ => rfl⟩⟩

end Sys2Proof.Machine
end

section
/-! SUPPORT. ADD, SUB and BEQ, the instructions with two register operands: where they complete, where they trap, their
rules from the opcode fetch on, and what ADD and SUB leave (spec/42_arithmetic.md R110 to R112, spec/43_control.md R120). -/

namespace Sys2Proof.Machine

/-! ## Results as numbers -/

theorem addResult_eq_ofNat (a b : Word) : addResult a b = BitVec.ofNat 16 (a.toNat + b.toNat) :=
  BitVec.add_def a b

theorem addResult_eq_ofNat_mod (a b : Word) : addResult a b = BitVec.ofNat 16 ((a.toNat + b.toNat) % 65536) := by
  rw [addResult_eq_ofNat]
  apply BitVec.eq_of_toNat_eq
  simp

theorem subResult_eq_ofNat (a b : Word) : subResult a b = BitVec.ofNat 16 (a.toNat + (65536 - b.toNat)) := by
  rw [subResult, BitVec.sub_def, Nat.add_comm]

theorem subResult_eq_ofInt_mod (a b : Word) :
    subResult a b = BitVec.ofInt 16 (((a.toNat : Int) - (b.toNat : Int)) % 65536) := by
  apply BitVec.eq_of_toNat_eq
  rw [subResult, BitVec.toNat_sub, BitVec.toNat_ofInt]
  omega

/-! ## Completion -/

/-- What ADD and SUB give for two registers, PC among them (spec/40_execution_loop.md R85, R90). -/
theorem registerOperation_completes (f : Word → Word → Word) (s : State) (d r : Reg) :
    completeCycle s (registerOperation f d.toByte r.toByte s) =
      .next (s.afterResult (f (s.sourceValue 2 d) (s.sourceValue 2 r)) d) := by
  simp only [registerOperation, operandReg_toByte, attempt_ok_bind, completeCycle_ok, State.readReg_afterOperands_eq,
    State.writeReg_afterOperands_advancePc]

theorem exec_add_completes (s : State) (d r : Reg) :
    exec (.add d.toByte r.toByte) s = .next (s.afterResult (s.sourceValue 2 d + s.sourceValue 2 r) d) :=
  registerOperation_completes addResult s d r

theorem exec_sub_completes (s : State) (d r : Reg) :
    exec (.sub d.toByte r.toByte) s = .next (s.afterResult (s.sourceValue 2 d - s.sourceValue 2 r) d) :=
  registerOperation_completes subResult s d r

/-- Settles O20: `registerOperation_completes` for each of the two, with its result as a number. -/
theorem arithmeticCompletes : Obligations.ArithmeticCompletes := by
  intro s d r
  rw [← addResult_eq_ofNat, ← subResult_eq_ofNat]
  exact ⟨exec_add_completes s d r, exec_sub_completes s d r⟩

/-- Three operand fetches and the final increment (spec/40_execution_loop.md R82, R84). -/
theorem pc_add_three_add_one (pc : Word) : pc + 3#16 + 1#16 = pc + 4#16 := BitVec.add_assoc pc 3#16 1#16

/-- The address that a taken branch continues at (spec/43_control.md R122). -/
theorem operandAddr_add_one (addr : Byte) : operandAddr addr + 1#16 = BitVec.ofNat 16 (addr.toNat + 1) := by
  rw [← ofNat_addr_eq, ← BitVec.ofNat_add]

/-- What BEQ gives for two registers, PC among them (spec/43_control.md R120). -/
theorem exec_beq_completes (s : State) (a b : Reg) (addr : Byte) :
    exec (.beq a.toByte b.toByte addr) s = .next { s with
      pc := if s.sourceValue 3 a = s.sourceValue 3 b then BitVec.ofNat 16 (addr.toNat + 1) else s.pc + 4 } := by
  simp only [exec, execBeq, operandReg_toByte, attempt_ok_bind, State.readReg_afterOperands_eq, equalWords, beq_iff_eq]
  split
  · rw [completeCycle_ok, ← operandAddr_add_one]
    rfl
  · rw [completeCycle_ok, State.advancePc, State.afterOperands_pc, pc_add_three_add_one]
    rfl

/-! ## Traps -/

/-- A fault of the spec's list is a failure of the first register check, or of the second after the first. -/
theorem RegisterPairFault.fails {reg1 reg2 : Byte} {e : Exc} (fault : RegisterPairFault reg1 reg2 e) :
    operandReg reg1 = .error e ∨ ∃ d : Reg, reg1 = d.toByte ∧ operandReg reg2 = .error e := by
  rcases fault with bad | ⟨small, bad⟩
  · exact .inl (operandReg_error_iff.mpr bad)
  · obtain ⟨d, rfl⟩ := registerByte_iff.mp small
    exact .inr ⟨d, rfl, operandReg_error_iff.mpr bad⟩

/-- Whatever follows two register checks, the cycle takes the fault of the first of them that fails. -/
theorem registerPair_traps {s : State} {reg1 reg2 : Byte} {e : Exc} (fault : RegisterPairFault reg1 reg2 e)
    (rest : Reg → Reg → Except Exc State) :
    completeCycle s (operandReg reg1 >>= fun d => operandReg reg2 >>= rest d) =
      .next (faultEntry s e.cause e.info) := by
  rcases fault.fails with bad | ⟨d, rfl, bad⟩
  · rw [bad, attempt_error_bind, completeCycle_error, takeFault_eq_faultEntry]
  · rw [operandReg_toByte, attempt_ok_bind, bad, attempt_error_bind, completeCycle_error, takeFault_eq_faultEntry]

/-! ## The rules from the opcode fetch on -/

/-- The clauses of ADD, SUB and BEQ after the fetches: the two register checks in order, and what completion gives. -/
theorem registerPair_rule {s : State} {reg1 reg2 : Byte} {o : Host.Outcome State Fault Refusal} {C : Reg → Reg → Prop}
    (traps : ∀ e, RegisterPairFault reg1 reg2 e → o = .next (faultEntry s e.cause e.info))
    (completes : ∀ d r, reg1 = d.toByte → reg2 = r.toByte → C d r) :
    (2 < reg1.toNat → o = .next (faultEntry s .invalidRegister reg1.toNat)) ∧
    (reg1.toNat ≤ 2 → 2 < reg2.toNat → o = .next (faultEntry s .invalidRegister reg2.toNat)) ∧
    ∀ d r : Reg, reg1 = d.toByte → reg2 = r.toByte → C d r :=
  ⟨fun bad => traps (.invalidRegister reg1) (.inl ⟨bad, rfl⟩),
    fun small bad => traps (.invalidRegister reg2) (.inr ⟨small, bad, rfl⟩), completes⟩

/-- Settles O14: the fetch clauses, then the register checks, then the sum of `exec_add_completes`. -/
theorem addFollowsItsRule : Obligations.AddFollowsItsRule := by
  intro s running
  refine step_three_byte_rule (o := .add) (instr := .add) running rfl (fun _ _ => rfl) fun reg1 reg2 run => ?_
  rw [run]
  refine registerPair_rule (fun e fault => registerPair_traps fault _) fun d r first second => ?_
  rw [first, second, ← addResult_eq_ofNat_mod]
  exact exec_add_completes s d r

/-- Settles O15: the fetch clauses, then the register checks, then the difference of `exec_sub_completes`. -/
theorem subFollowsItsRule : Obligations.SubFollowsItsRule := by
  intro s running
  refine step_three_byte_rule (o := .sub) (instr := .sub) running rfl (fun _ _ => rfl) fun reg1 reg2 run => ?_
  rw [run]
  refine registerPair_rule (fun e fault => registerPair_traps fault _) fun d r first second => ?_
  rw [first, second, ← subResult_eq_ofInt_mod]
  exact exec_sub_completes s d r

/-- The fetch clauses of BEQ, the one four-byte instruction: the fault of the first fetch that fails, and the
instruction's meaning when none does (spec/40_execution_loop.md R81 to R83, R88). -/
theorem step_beq_rule {s : State} {Q : Byte → Byte → Byte → Prop} (running : s.Running)
    (executed : ∀ b1 b2 b3, step s = exec (.beq b1 b2 b3) s → Q b1 b2 b3) :
    (∀ e, memReadByte s s.pc = .error e → step s = .next (faultEntry s e.cause e.info)) ∧
    (memReadByte s s.pc = .ok 0x05 →
    (∀ e, memReadByte s (s.pc + 1) = .error e → step s = .next (faultEntry s e.cause e.info)) ∧
    ∀ b1, memReadByte s (s.pc + 1) = .ok b1 →
    (∀ e, memReadByte s (s.pc + 2) = .error e → step s = .next (faultEntry s e.cause e.info)) ∧
    ∀ b2, memReadByte s (s.pc + 2) = .ok b2 →
    (∀ e, memReadByte s (s.pc + 3) = .error e → step s = .next (faultEntry s e.cause e.info)) ∧
    ∀ b3, memReadByte s (s.pc + 3) = .ok b3 → Q b1 b2 b3) := by
  refine ⟨fun e failed => step_of_fetch_error running (fetchInstr_opcode_error failed), fun opcode => ?_⟩
  have operand_fault (k : Nat) (e : Exc) (lower : 1 ≤ k) (upper : k ≤ 3)
      (before : ∀ j, 1 ≤ j → j < k → ∃ b, memReadByte s (s.pc + BitVec.ofNat 16 j) = .ok b)
      (failed : memReadByte s (s.pc + BitVec.ofNat 16 k) = .error e) :
      step s = .next (faultEntry s e.cause e.info) :=
    step_of_fetch_error running
      (fetchInstr_operand_error opcode (Opcode.ofByte?_toByte .beq) lower upper before failed)
  refine ⟨fun e failed => ?_, fun b1 first => ⟨fun e failed => ?_, fun b2 second =>
    ⟨fun e failed => ?_, fun b3 third => ?_⟩⟩⟩
  · exact operand_fault 1 e (by omega) (by omega) (fun j lower below => by omega) failed
  · refine operand_fault 2 e (by omega) (by omega) (fun j lower below => ?_) failed
    obtain rfl : j = 1 := by omega
    exact ⟨b1, first⟩
  · refine operand_fault 3 e (by omega) (by omega) (fun j lower below => ?_) failed
    obtain rfl | rfl : j = 1 ∨ j = 2 := by omega
    · exact ⟨b1, first⟩
    · exact ⟨b2, second⟩
  · refine executed b1 b2 b3 (step_of_fetched running (fetchInstr_of_bytes fun k b own => ?_))
    match k, own with
    | 0, rfl => exact (fetchByte_zero s).trans opcode
    | 1, rfl => exact first
    | 2, rfl => exact second
    | 3, rfl => exact third

theorem toNat_branchTarget (addr : Byte) : (BitVec.ofNat 16 (addr.toNat + 1)).toNat = addr.toNat + 1 := by
  rw [BitVec.toNat_ofNat]
  omega

/-- A running machine whose PC, as the number `n`, does not translate takes the fault of its opcode fetch. -/
theorem step_unmapped_pc {t : State} {n : Nat} {e : Exc} (running : t.Running) (address : t.pc.toNat = n)
    (unmapped : translateAddr t.tt t.curPid t.pc = .error e) :
    step t = .next (faultEntry t .translationFault n) := by
  obtain ⟨-, -, faults⟩ := opcodeFetchFaults
  obtain ⟨untranslated, -⟩ := faults t running
  rw [← address]
  exact untranslated e unmapped

/-- Settles O16: the fetch clauses, then the register checks, then the two outcomes of `exec_beq_completes`; the step
after a taken branch fetches its opcode at `addr + 1`. -/
theorem beqFollowsItsRule : Obligations.BeqFollowsItsRule := by
  intro s running
  refine step_beq_rule running fun reg1 reg2 addr run => ?_
  rw [run]
  refine registerPair_rule (fun e fault => registerPair_traps fault _) fun a b first second => ?_
  rw [first, second, exec_beq_completes]
  refine ⟨fun equal => by rw [if_pos equal], fun different => by rw [if_neg different],
    fun t e equal taken unmapped => ?_⟩
  rw [if_pos equal] at taken
  cases taken
  exact step_unmapped_pc running (toNat_branchTarget addr) unmapped

/-! ## The frame -/

/-- What ADD and SUB leave: the registers by `registerOperation_keeps_reg`; the rest is what a cycle that writes a
register, or takes a fault, keeps. -/
theorem registerOperation_frame {s t : State} {f : Word → Word → Word} {reg1 reg2 : Byte}
    (done : completeCycle s (registerOperation f reg1 reg2 s) = .next t) :
    (reg1 ≠ 1#8 → t.r1 = s.r1) ∧ (reg1 ≠ 2#8 → t.r2 = s.r2) ∧
    (∀ a, t.mem.read a = s.mem.read a) ∧ SameSurroundings s t ∧ (SameControl s t ∨ FaultTaken s t) := by
  refine ⟨fun other => registerOperation_keeps_reg (q := .r1) (by decide) other done,
    fun other => registerOperation_keeps_reg (q := .r2) (by decide) other done, ?_⟩
  rcases registerOperation_cases done with ⟨d, r, -, -, rfl⟩ | ⟨e, -, rfl⟩
  · obtain ⟨surroundings, control⟩ :=
      writeReg_cycle_frame s 2 d (f ((s.afterOperands 2).readReg d) ((s.afterOperands 2).readReg r))
    exact ⟨fun a => by simp, surroundings, .inl control⟩
  · exact ⟨fun _ => rfl, sameSurroundings_takeFault s e, .inr (faultTaken_takeFault s e)⟩

/-- Settles O25: `registerOperation_frame`, for the sum and for the difference. -/
theorem arithmeticFrame : Obligations.ArithmeticFrame := by
  rintro s t reg1 reg2 (done | done)
  · exact registerOperation_frame done
  · exact registerOperation_frame done

/-! ## SUB after ADD -/

/-- After a result to a general register, that register shows the result. -/
theorem State.sourceValue_afterResult_same {d : Reg} (general : d ≠ .pc) (s : State) (v : Word) (n : Nat) :
    (s.afterResult v d).sourceValue n d = v := by
  cases d with
  | pc => exact absurd rfl general
  | r1 | r2 => rfl

/-- After a result to one general register, the other shows what it showed. -/
theorem State.sourceValue_afterResult_other {d r : Reg} (general : r ≠ .pc) (other : d ≠ r) (s : State) (v : Word)
    (n : Nat) : (s.afterResult v d).sourceValue n r = s.sourceValue n r := by
  cases r with
  | pc => exact absurd rfl general
  | r1 =>
    cases d with
    | r1 => exact absurd rfl other
    | pc | r2 => rfl
  | r2 =>
    cases d with
    | r2 => exact absurd rfl other
    | pc | r1 => rfl

/-- A second result to the same general register that gives back its old value leaves PC alone changed, by 6. -/
theorem State.afterResult_afterResult_restore {d : Reg} (general : d ≠ .pc) (s : State) (v : Word) :
    (s.afterResult v d).afterResult (s.sourceValue 2 d) d = { s with pc := s.pc + 6 } := by
  have further : s.pc + 3#16 + 3#16 = s.pc + 6#16 := BitVec.add_assoc s.pc 3#16 3#16
  cases d with
  | pc => exact absurd rfl general
  | r1 | r2 => exact congrArg (fun pc => { s with pc := pc }) further

/-- Settles O37: the difference subtracts the same value that the sum added, so the second result is the register's old
value. -/
theorem subUndoesAdd : Obligations.SubUndoesAdd := by
  intro s d r generalD generalR other
  have restored : exec (.sub d.toByte r.toByte) (s.afterResult (s.sourceValue 2 d + s.sourceValue 2 r) d) =
      .next { s with pc := s.pc + 6 } := by
    rw [exec_sub_completes, State.sourceValue_afterResult_same generalD,
      State.sourceValue_afterResult_other generalR other, BitVec.add_sub_cancel,
      State.afterResult_afterResult_restore generalD]
  exact ⟨_, _, exec_add_completes s d r, restored, rfl, rfl, rfl⟩

end Sys2Proof.Machine
end

section
/-! SUPPORT. BEQ and HALT: what they give and leave, where a taken branch continues, what the host sees after a HALT, and
which cycles end a run (spec/43_control.md R120 to R122, spec/70_reset_and_hazards.md R181). -/

namespace Sys2Proof.Machine

/-! ## Completion -/

/-- What HALT gives (spec/43_control.md R121). -/
theorem exec_halt (s : State) : exec .halt s = .next (s.stopCurrent.advancePc 1) := rfl

/-- The state HALT gives, in the words of the statements. -/
theorem stopCurrent_advancePc_eq (s : State) :
    s.stopCurrent.advancePc 1 = { s with
      pc := s.pc + 1, haltFlag := true
      procs := s.procs.map (fun p => if p.id = s.curPid then { p with state := .halted } else p) } := rfl

/-- Settles O21: `exec_beq_completes`, whose test is always met by one register named twice, and `exec_halt`. -/
theorem controlCompletes : Obligations.ControlCompletes := by
  refine ⟨exec_beq_completes, fun s a addr => ?_, fun s => ?_⟩
  · rw [exec_beq_completes, if_pos rfl]
  · rw [exec_halt, stopCurrent_advancePc_eq]

/-- Settles O38: `exec_beq_completes` where the registers are equal, with a byte for `addr`. -/
theorem takenBranchReach : Obligations.TakenBranchReach := by
  intro s t a b addr equal taken
  have target : t.pc.toNat = addr.toNat + 1 := by
    rw [exec_beq_completes, if_pos equal] at taken
    cases taken
    exact toNat_branchTarget addr
  have byte := addr.isLt
  exact ⟨target, by omega, by omega⟩

/-! ## The frames -/

/-- A change of one process's record keeps the records of the others. -/
theorem mem_setProcState_other {procs : List Proc} {pid : Nat} {st : ProcState} {p : Proc} (other : p.id ≠ pid) :
    p ∈ setProcState procs pid st ↔ p ∈ procs := by
  rw [mem_setProcState]
  constructor
  · rintro ⟨q, member, same⟩
    split_ifs at same with own
    · exact absurd ((congrArg Proc.id same).trans own) other
    · exact same ▸ member
  · exact fun member => ⟨p, member, (if_neg other).symm⟩

theorem not_namesDestination_beq (reg1 reg2 addr : Byte) (q : Reg) :
    ¬ NamesDestination (.beq reg1 reg2 addr) q := by
  simp [NamesDestination]

/-- What BEQ leaves: the registers by `exec_keeps_reg` and memory by `exec_mem_cases`; both outcomes change PC alone. -/
theorem execBeq_frame {s t : State} {reg1 reg2 addr : Byte} (done : exec (.beq reg1 reg2 addr) s = .next t) :
    t.r1 = s.r1 ∧ t.r2 = s.r2 ∧ (∀ a, t.mem.read a = s.mem.read a) ∧ SameSurroundings s t ∧
    (SameControl s t ∨ FaultTaken s t) := by
  have keeps (q : Reg) (general : q ≠ .pc) : t.readReg q = s.readReg q :=
    exec_keeps_reg general (not_namesDestination_beq reg1 reg2 addr q) done
  have mem : t.mem = s.mem := (exec_mem_cases done).resolve_right (by simp)
  refine ⟨keeps .r1 (by decide), keeps .r2 (by decide), fun a => by rw [mem], ?_⟩
  rcases execBeq_cases done with ⟨a, b, -, -, rfl⟩ | ⟨e, -, rfl⟩
  · split
    · obtain ⟨surroundings, control⟩ := writeReg_cycle_frame s 3 .pc (operandAddr addr)
      exact ⟨surroundings, .inl control⟩
    · exact ⟨⟨rfl, rfl, rfl, rfl, rfl, rfl⟩, .inl ⟨rfl, rfl, rfl, rfl⟩⟩
  · exact ⟨sameSurroundings_takeFault s e, .inr (faultTaken_takeFault s e)⟩

/-- Settles O26: `execBeq_frame`, and for HALT the records of the others by `mem_setProcState_other`. -/
theorem controlFrame : Obligations.ControlFrame := by
  refine ⟨fun s t reg1 reg2 addr => execBeq_frame, fun s t done => ?_⟩
  rw [execHalt_cases done]
  exact ⟨rfl, rfl, fun _ => rfl, ⟨rfl, rfl, rfl, rfl, rfl, rfl⟩, rfl, rfl, fun p other => mem_setProcState_other other⟩

/-! ## After a halt -/

/-- A halted machine stays where it is (spec/40_execution_loop.md R80). -/
theorem core_run_halted {s : State} (halted : s.haltFlag = true) (k : Nat) :
    Host.Core.run Sys2Proof.core k s = .next s := by
  induction k with
  | zero => rfl
  | succ k ih => rw [core_run_succ (step_halted halted), ih]

theorem observe_halted {s : State} (halted : s.haltFlag = true) :
    observe s = some ⟨s.pc, s.r1, s.r2, s.faultCause, s.faultInfo, s.procs⟩ := by
  rw [observe, if_pos halted]

theorem observeCell_halted {s : State} {a : Nat} (halted : s.haltFlag = true) (inside : a < s.physSize) :
    observeCell s a = some (s.mem.read a) := by
  simp only [observeCell, halted, if_true, physRead, if_pos inside]

/-- HALT is fetched where its one byte is read. -/
theorem fetchInstr_halt {s : State} (opcode : memReadByte s s.pc = .ok 0xFF) : fetchInstr s = .ok .halt :=
  fetchInstr_of_bytes fun k b own => by
    match k, own with
    | 0, rfl => exact (fetchByte_zero s).trans opcode

/-- Settles O17: the fetch answers HALT, and the rest is what holds after any halt. -/
theorem haltFollowsItsRule : Obligations.HaltFollowsItsRule := by
  intro s running
  refine ⟨fun e failed => step_of_fetch_error running (fetchInstr_opcode_error failed), fun opcode => ?_⟩
  have stepped := (step_of_fetched running (fetchInstr_halt opcode)).trans (exec_halt s)
  refine ⟨_, stepped, stopCurrent_advancePc_eq s, core_run_halted rfl, observe_halted rfl,
    fun a inside => observeCell_halted rfl inside, fun pid u started => ?_⟩
  obtain ⟨-, -, -, rfl⟩ := start_next_iff.mp started
  exact ⟨rfl, rfl, rfl, rfl⟩

/-! ## The end of a run -/

/-- Every instruction but HALT keeps the control state or takes a fault. -/
theorem exec_control_cases {s t : State} {i : Instr} (other : i ≠ .halt) (done : exec i s = .next t) :
    SameControl s t ∨ FaultTaken s t := by
  cases i with
  | loadWord reg addr =>
    obtain ⟨-, -, -, -, control⟩ := loadWordFrame s t reg addr done
    exact control
  | storeWord reg addr =>
    obtain ⟨-, -, -, -, -, control⟩ := storeWordFrame s t reg addr done
    exact control.imp_right And.left
  | add reg1 reg2 | sub reg1 reg2 =>
    obtain ⟨-, -, -, -, control⟩ := registerOperation_frame done
    exact control
  | beq reg1 reg2 addr =>
    obtain ⟨-, -, -, -, control⟩ := execBeq_frame done
    exact control
  | halt => exact absurd rfl other

/-- What a cycle does to the control state: it executes a HALT, or it keeps the control state or takes a fault. -/
theorem step_control_cases {s t : State} (running : s.Running) (stepped : step s = .next t) :
    (fetchInstr s = .ok .halt ∧ t = s.stopCurrent.advancePc 1) ∨
      (fetchInstr s ≠ .ok .halt ∧ (SameControl s t ∨ FaultTaken s t)) := by
  rcases step_running_cases running stepped with ⟨i, fetched, done⟩ | ⟨e, failed, rfl⟩
  · by_cases isHalt : i = .halt
    · subst isHalt
      exact .inl ⟨fetched, execHalt_cases done⟩
    · exact .inr ⟨fun asHalt => isHalt (Except.ok.inj (fetched.symm.trans asHalt)), exec_control_cases isHalt done⟩
  · exact .inr ⟨by simp [failed], .inr (faultTaken_takeFault s e)⟩

theorem FaultTaken.endedByFault {s t : State} (taken : FaultTaken s t) : t.EndedByFault := by
  obtain ⟨latched, entry⟩ := taken
  exact ⟨by rw [entry]; rfl, latched⟩

theorem FaultTaken.pc_eq {s t : State} (taken : FaultTaken s t) : t.pc = s.pc := by
  rw [taken.2]
  rfl

/-- Settles O31: the three cases of `step_control_cases`; of them only a HALT ends the run cleanly, and only a fault ends
it by fault. -/
theorem runEndsByHaltOrFault : Obligations.RunEndsByHaltOrFault := by
  intro s t running clear stepped
  rcases step_control_cases running stepped with ⟨fetched, rfl⟩ | ⟨notHalt, ⟨flag, cause, -, -⟩ | taken⟩
  · have clean : (s.stopCurrent.advancePc 1).EndedCleanly := ⟨rfl, clear⟩
    exact ⟨iff_of_true clean fetched, and_iff_right clean.1, fun _ => rfl, fun byFault => absurd clear byFault.2⟩
  · have goesOn : t.haltFlag ≠ true := by simp [flag, running]
    have unlatched : t.faultCause = .none := cause.trans clear
    exact ⟨iff_of_false (fun clean => goesOn clean.1) notHalt,
      iff_of_false (fun byFault => goesOn byFault.1) (fun latched => latched unlatched),
      fun clean => absurd clean.1 goesOn, fun byFault => absurd byFault.1 goesOn⟩
  · have byFault := taken.endedByFault
    exact ⟨iff_of_false (fun clean => byFault.2 clean.2) notHalt, and_iff_right byFault.1,
      fun clean => absurd clean.2 byFault.2, fun _ => taken.pc_eq⟩

end Sys2Proof.Machine
end

section
/-! SUPPORT. What no step changes: the translation table, the current process, the next id, the occupancy markers, `N` and
the aborted loads (spec/60_exceptions.md R143). -/

namespace Sys2Proof.Machine

/-- Every instruction keeps the surroundings, each by its own frame. -/
theorem exec_keeps_surroundings {s t : State} {i : Instr} (done : exec i s = .next t) : SameSurroundings s t := by
  cases i with
  | loadWord reg addr =>
    obtain ⟨-, -, -, surroundings, -⟩ := loadWordFrame s t reg addr done
    exact surroundings
  | storeWord reg addr =>
    obtain ⟨-, -, -, -, surroundings, -⟩ := storeWordFrame s t reg addr done
    exact surroundings
  | add reg1 reg2 | sub reg1 reg2 =>
    obtain ⟨-, -, -, surroundings, -⟩ := registerOperation_frame done
    exact surroundings
  | beq reg1 reg2 addr =>
    obtain ⟨-, -, -, surroundings, -⟩ := execBeq_frame done
    exact surroundings
  | halt =>
    obtain ⟨-, -, -, surroundings, -⟩ := controlFrame.2 s t done
    exact surroundings

/-- Settles O27: a halted machine keeps its whole state; a running one executes an instruction (`exec_keeps_surroundings`)
or takes the fault of its fetch (`sameSurroundings_takeFault`). -/
theorem stepKeepsTheSurroundings : Obligations.StepKeepsTheSurroundings := by
  intro s t stepped
  cases flag : s.haltFlag with
  | true =>
    cases (step_halted flag).symm.trans stepped
    exact ⟨rfl, rfl, rfl, rfl, rfl, rfl⟩
  | false =>
    rcases step_running_cases flag stepped with ⟨i, -, done⟩ | ⟨e, -, rfl⟩
    · exact exec_keeps_surroundings done
    · exact sameSurroundings_takeFault s e

end Sys2Proof.Machine
end

section
/-! SUPPORT. The host's side: the allocator as first fit, what a load leaves where it succeeds and where it runs out of
memory, and the invariant across either (spec/70_reset_and_hazards.md R167 to R172). -/

namespace Sys2Proof.Machine

/-! ## The allocator -/

/-- An allocation fails exactly when every run of its length inside memory has an occupied cell. -/
theorem allocate_eq_none_iff {s : State} {len : Nat} :
    allocate s len = none ↔ ∀ b, b + len ≤ s.physSize → ∃ i, i < len ∧ b + i ∈ s.occ := by
  constructor
  · intro failed b inside
    have noRun : firstFit s.occ len (s.physSize - len + 1) 0 = none := by
      rw [allocate, if_pos (by omega)] at failed
      cases search : firstFit s.occ len (s.physSize - len + 1) 0 with
      | none => rfl
      | some c =>
        rw [search] at failed
        cases failed
    have taken := firstFit_eq_none noRun b (Nat.zero_le b) (by omega)
    by_contra free
    push Not at free
    simp [runFree_iff.mpr free] at taken
  · intro full
    rcases done : allocate s len with _ | ⟨b, t⟩
    · rfl
    · obtain ⟨inside, free, -, -⟩ := allocate_eq_some done
      obtain ⟨i, short, taken⟩ := full b inside
      exact absurd taken (free i short)

/-- The cells an allocation answers were free. -/
theorem allocate_free {s t : State} {len b a : Nat} (done : allocate s len = some (b, t)) (lower : b ≤ a)
    (upper : a < b + len) : a ∉ s.occ := by
  obtain ⟨-, free, -, -⟩ := allocate_eq_some done
  obtain ⟨i, rfl⟩ := Nat.exists_eq_add_of_le lower
  exact free i (by omega)

/-- The occupied cells after an allocation. -/
theorem allocate_mem_occ {s t : State} {len b a : Nat} (done : allocate s len = some (b, t)) :
    a ∈ t.occ ↔ a ∈ s.occ ∨ (b ≤ a ∧ a < b + len) := by
  obtain ⟨-, -, -, rfl⟩ := allocate_eq_some done
  exact mem_occMarkRange.trans or_comm

/-- An allocation of nothing answers address 0, since the first candidate already fits. -/
theorem allocate_zero_base {s t : State} {b : Nat} (done : allocate s 0 = some (b, t)) : b = 0 := by
  obtain ⟨-, -, first, -⟩ := allocate_eq_some done
  by_contra later
  obtain ⟨i, short, -⟩ := first 0 (by omega)
  omega

/-- Settles O50: the search answers the lowest free run (`allocate_eq_some`), or there is none (`allocate_eq_none_iff`). -/
theorem allocateIsFirstFit : Obligations.AllocateIsFirstFit := by
  refine fun s len => ⟨fun b t done => ?_, allocate_eq_none_iff⟩
  obtain ⟨inside, free, first, result⟩ := allocate_eq_some done
  refine ⟨inside, free, first, by rw [result], fun a => allocate_mem_occ done, fun empty => ?_⟩
  subst empty
  exact ⟨allocate_zero_base done, result⟩

/-- Settles O51: the cells of the first region are still occupied when the second, whose cells are free, is searched for. -/
theorem allocationsNeverOverlap : Obligations.AllocationsNeverOverlap := by
  rintro s t u v n m b c first noneFreed second a ⟨inFirst, inSecond⟩
  have taken : a ∈ u.occ := noneFreed a ((allocate_mem_occ first).mpr (.inr inFirst))
  exact allocate_free second inSecond.1 inSecond.2 taken

/-! ## A load that succeeds, and one that runs out of memory -/

/-- Loading a segment fails only where its allocation does. -/
theorem loadSegment_eq_none_iff {image : List Byte} {pid : Nat} {s : State} {h : SegmentHeader} :
    loadSegment image pid s h = none ↔ allocate s h.length.toNat = none := by
  rw [loadSegment]
  split <;> simp [*]

/-- Where a load that has done its first `k` segments runs out of memory: at a segment `j` whose allocation fails, the
segments before it done. -/
theorem LoadedUpTo.failed {s u t : State} {image : List Byte} {k m : Nat} (valid : imageValid image = true)
    (all : k + m = segmentCount image) (before : LoadedUpTo s u image k)
    (failed : loadSegments image s.nextPid ((List.range' k m).map (headerAt image)) u = .outOfMemory t) :
    ∃ j v, j < segmentCount image ∧ LoadedUpTo s v image j ∧ allocate v (headerAt image j).length.toNat = none ∧
      t = abortLoad v s.nextPid := by
  induction m generalizing u k with
  | zero => cases failed
  | succ m ih =>
    rw [List.range'_succ, List.map_cons, loadSegments] at failed
    cases next : loadSegment image s.nextPid u (headerAt image k) with
    | none =>
      rw [next] at failed
      cases failed
      exact ⟨k, u, by omega, before, loadSegment_eq_none_iff.mp next, rfl⟩
    | some v =>
      rw [next] at failed
      exact ih (by omega) (before.succ (imageValid_payload valid (by omega)) next) failed

/-- Everything a load that runs out of memory has done. -/
theorem load_outOfMemory {s t : State} {image : List Byte} (failed : load s image = .outOfMemory t) :
    ∃ k u, k < segmentCount image ∧ LoadedUpTo s u image k ∧ allocate u (headerAt image k).length.toNat = none ∧
      t = abortLoad u s.nextPid := by
  rw [load] at failed
  split_ifs at failed with valid
  rw [imageHeaders, List.range_eq_range'] at failed
  exact (loadedUpTo_zero s image).failed valid (Nat.zero_add _) failed

/-- Noting an aborted load leaves the allocator's search as it was. -/
theorem allocate_abortLoad_eq_none {s : State} {pid len : Nat} :
    allocate (abortLoad s pid) len = none ↔ allocate s len = none := by
  simp only [allocate_eq_none_iff, abortLoad_physSize, abortLoad_occ]

/-- What the segments of a load leave of the cells occupied before it. -/
theorem SegmentsLoaded.keeps_occupied {s t : State} {image : List Byte} {k a : Nat} (loaded : SegmentsLoaded s t image k)
    (taken : a ∈ s.occ) : a ∈ t.occ ∧ t.mem.read a = s.mem.read a := by
  obtain ⟨entries, -, -, -, occupied, kept⟩ := loaded
  exact ⟨(occupied a).mpr (.inl taken), kept a (.inl taken)⟩

/-- `SegmentsLoaded` speaks of the table, the memory and the markers alone, so noting an aborted load keeps it. -/
theorem SegmentsLoaded.abortLoad {s u : State} {image : List Byte} {k : Nat} (loaded : SegmentsLoaded s u image k)
    (pid : Nat) : SegmentsLoaded s (abortLoad u pid) image k := loaded

/-- A start of a process whose load ran out of memory is refused. -/
theorem start_abortLoad {s : State} {pid : Nat} (halted : s.haltFlag = true) (recorded : ∃ p ∈ s.procs, p.id = pid) :
    start (abortLoad s pid) pid = .refused (.startAbortedLoad pid) := by
  have known : s.procs.any (fun p => p.id == pid) = true := by simpa using recorded
  simp [start, halted, known]

/-- Settles O53: `load_loaded`, whose frame names the fields that the load writes. -/
theorem loadCreatesOneProcess : Obligations.LoadCreatesOneProcess := by
  intro s t image pid done
  obtain ⟨rfl, segments, frame⟩ := load_loaded done
  exact ⟨rfl, segments, frame⟩

/-- Settles O54: either load is `SegmentsLoaded` up to some segment; out of memory, that segment's allocation has failed
(`load_outOfMemory`) and noting the aborted load changes none of it. -/
theorem loadLeavesPriorAllocations : Obligations.LoadLeavesPriorAllocations := by
  intro s t image
  constructor
  · rintro (⟨pid, done⟩ | failed) a taken
    · exact (load_loaded done).2.segments.keeps_occupied taken
    · obtain ⟨k, u, -, before, -, rfl⟩ := load_outOfMemory failed
      exact (before.segments.abortLoad s.nextPid).keeps_occupied taken
  · intro failed
    obtain ⟨k, u, inCount, ⟨segments, frame⟩, full, rfl⟩ := load_outOfMemory failed
    refine ⟨k, inCount, segments.abortLoad s.nextPid, ?_, ?_, fun halted => start_abortLoad ?_ ?_⟩
    · exact allocate_abortLoad_eq_none.mpr full
    · rw [frame]
      rfl
    · rw [frame]
      exact halted
    · rw [frame]
      exact ⟨_, List.mem_append_right _ List.mem_cons_self, rfl⟩

/-! ## The invariant across the host's operations -/

/-- A table registration keeps the invariant. -/
theorem ttRegister_keeps_inv {s : State} {e : TTEntry} (inv : s.Inv) (range : e.InRange) : (ttRegister s e).Inv :=
  { inv with
    tableInRange := fun f member => by
      rcases List.mem_append.mp member with old | new
      · exact inv.tableInRange f old
      · cases List.mem_singleton.mp new
        exact .inl range }

/-- Creating a process keeps the invariant: its id is above every id in use. -/
theorem createProcess_keeps_inv {s : State} (inv : s.Inv) : (createProcess s).Inv :=
  { inv with
    idsIncreasing := by
      rw [createProcess_procs, List.map_append, List.pairwise_append]
      refine ⟨inv.idsIncreasing, List.pairwise_singleton _ _, fun old oldIn new newIn => ?_⟩
      obtain ⟨p, member, rfl⟩ := List.mem_map.mp oldIn
      cases List.mem_singleton.mp newIn
      exact (inv.idsIssued p member).2
    idsIssued := fun p member => by
      rcases List.mem_append.mp member with old | new
      · exact (inv.idsIssued p old).imp_right Nat.lt_succ_of_lt
      · cases List.mem_singleton.mp new
        exact ⟨inv.nextPositive, Nat.lt_succ_self _⟩
    nextPositive := Nat.succ_pos _
    runningCurrent := fun running => List.mem_append_left _ (inv.runningCurrent running)
    abortedRecorded := fun pid aborted => by
      obtain ⟨p, member, same⟩ := inv.abortedRecorded pid aborted
      exact ⟨p, List.mem_append_left _ member, same⟩ }

/-- Loading a segment keeps the invariant: it marks and writes inside memory only, and its entry is in range. -/
theorem loadSegment_keeps_inv {image : List Byte} {pid : Nat} {s t : State} {h : SegmentHeader} (inv : s.Inv)
    (issued : 1 ≤ pid) (done : loadSegment image pid s h = some t) : t.Inv := by
  obtain ⟨pb, allocated, rfl⟩ := loadSegment_eq_some done
  obtain ⟨inside, -, -, -⟩ := allocate_eq_some allocated
  have size := inv.sizeBounds.2
  have base : pb < 65536 := by
    rcases Nat.eq_zero_or_pos h.length.toNat with empty | positive
    · rw [empty] at allocated
      rw [allocate_zero_base allocated]
      decide
    · omega
  have range : TTEntry.InRange ⟨pid, h.target.toNat, h.length.toNat, pb⟩ :=
    ⟨issued, h.target.isLt.trans (by decide), h.length.isLt.trans (by decide), base⟩
  refine ttRegister_keeps_inv (s := { s with
    occ := occMarkRange s.occ pb h.length.toNat, mem := s.mem.writeBytes pb (payload image h) }) ?_ range
  exact { inv with
    memCanonical := Memory.writeBytes_wf pb _ inv.memCanonical
    memInside := fun c member => by
      show c.1 < s.physSize
      rcases Memory.mem_writeBytes member with new | old
      · have := payload_length_le image h
        omega
      · exact inv.memInside c old
    occCanonical := occMarkRange_pairwise pb _ inv.occCanonical
    occInside := fun a taken => by
      show a < s.physSize
      rcases mem_occMarkRange.mp taken with new | old
      · omega
      · exact inv.occInside a old }

/-- Noting an aborted load keeps the invariant of a halted machine. -/
theorem abortLoad_keeps_inv {s : State} {pid : Nat} (inv : s.Inv) (halted : s.haltFlag = true)
    (recorded : ∃ p ∈ s.procs, p.id = pid) : (abortLoad s pid).Inv :=
  { inv with
    abortedRecorded := fun q aborted => by
      rcases List.mem_append.mp aborted with old | new
      · exact inv.abortedRecorded q old
      · cases List.mem_singleton.mp new
        exact recorded
    abortedIdle := fun running => absurd (halted.symm.trans running) (by decide) }

/-- Loading segments keeps the invariant of a halted machine that has the process's record, where all of them are loaded
and where one of them runs out of memory. -/
theorem loadSegments_keeps_inv {image : List Byte} {pid : Nat} {hs : List SegmentHeader} {s t : State} (inv : s.Inv)
    (halted : s.haltFlag = true) (recorded : ∃ p ∈ s.procs, p.id = pid)
    (done : (∃ q, loadSegments image pid hs s = .loaded q t) ∨ loadSegments image pid hs s = .outOfMemory t) : t.Inv := by
  induction hs generalizing s with
  | nil =>
    rcases done with ⟨q, done⟩ | failed
    · cases done
      exact inv
    · cases failed
  | cons h hs ih =>
    rw [loadSegments] at done
    cases next : loadSegment image pid s h with
    | none =>
      rw [next] at done
      rcases done with ⟨q, done⟩ | failed
      · cases done
      · cases failed
        exact abortLoad_keeps_inv inv halted recorded
    | some u =>
      rw [next] at done
      have issued : 1 ≤ pid := by
        obtain ⟨p, member, rfl⟩ := recorded
        exact (inv.idsIssued p member).1
      have kept : u.haltFlag = s.haltFlag ∧ u.procs = s.procs := by
        obtain ⟨pb, -, rfl⟩ := loadSegment_eq_some next
        exact ⟨rfl, rfl⟩
      exact ih (loadSegment_keeps_inv inv issued next) (kept.1.trans halted) (kept.2 ▸ recorded) done

/-- Settles O48: the new record, then each segment, then the note of an aborted load keep the invariant. -/
theorem loadKeepsInv : Obligations.LoadKeepsInv := by
  intro s t image inv halted done
  rw [load] at done
  split_ifs at done with valid
  · exact loadSegments_keeps_inv (createProcess_keeps_inv inv) halted
      ⟨_, List.mem_append_right _ List.mem_cons_self, rfl⟩ done
  · simp at done

end Sys2Proof.Machine
end

section
/-! SUPPORT. Which faults a cycle can raise, and so what a cycle leaves: it halts, keeps the control state, or takes a
fault that the spec gives it (spec/60_exceptions.md R131 to R134). -/

namespace Sys2Proof.Machine

/-! ## Opcodes and register bytes -/

/-- The bytes that select no opcode (spec/30_encoding.md R63, R64). -/
theorem ofByte?_eq_none_iff {op : Byte} :
    Opcode.ofByte? op = none ↔ op ∉ [0x01#8, 0x02#8, 0x03#8, 0x04#8, 0x05#8, 0xFF#8] := by
  unfold Opcode.ofByte?
  split_ifs <;> simp [*]

/-- The first register operand byte that names no register (spec/30_encoding.md R66). -/
def firstBadRegister (i : Instr) : Option Byte := (registerOperands i).find? (fun r => decide (2 < r.toNat))

theorem firstBadRegister_single {i : Instr} {reg b : Byte} (form : registerOperands i = [reg]) :
    firstBadRegister i = some b ↔ 2 < reg.toNat ∧ b = reg := by
  rw [firstBadRegister, form]
  by_cases bad : 2 < reg.toNat <;> simp [bad, eq_comm]

theorem firstBadRegister_pair {i : Instr} {reg1 reg2 b : Byte} (form : registerOperands i = [reg1, reg2]) :
    firstBadRegister i = some b ↔ RegisterPairFault reg1 reg2 (.invalidRegister b) := by
  rw [firstBadRegister, form, RegisterPairFault]
  by_cases first : 2 < reg1.toNat
  · simp [first, eq_comm]
  · by_cases second : 2 < reg2.toNat <;> simp [first, second, Nat.not_lt.mp first, eq_comm]

/-- An instruction with a bad register byte, whatever else it would do, takes the fault of the first. -/
theorem exec_invalidRegister {s : State} {i : Instr} {b : Byte} (bad : firstBadRegister i = some b) :
    exec i s = .next (faultEntry s .invalidRegister b.toNat) := by
  cases i with
  | loadWord reg addr =>
    obtain ⟨large, rfl⟩ := (firstBadRegister_single rfl).mp bad
    exact exec_loadStore_traps (.inl rfl) (.inl ⟨large, rfl⟩)
  | storeWord reg addr =>
    obtain ⟨large, rfl⟩ := (firstBadRegister_single rfl).mp bad
    exact exec_loadStore_traps (.inr rfl) (.inl ⟨large, rfl⟩)
  | add reg1 reg2 | sub reg1 reg2 | beq reg1 reg2 addr =>
    exact registerPair_traps ((firstBadRegister_pair rfl).mp bad) _
  | halt => cases bad

/-! ## The faults of a cycle -/

/-- What holds at the start of a cycle that raises a fault (spec/60_exceptions.md R131 to R134). -/
def CanRaise (s : State) : Exc → Prop
  | .translationFault _ => True
  | .invalidOpcode op => memReadByte s s.pc = .ok op ∧ Opcode.ofByte? op = none
  | .invalidRegister r => ∃ i, fetchInstr s = .ok i ∧ firstBadRegister i = some r
  | .physicalRangeFault pa => s.physSize ≤ pa ∧ s.Reaches pa

theorem canRaise_of_unmapped {s : State} {la : Word} {e : Exc} (unmapped : translateAddr s.tt s.curPid la = .error e) :
    CanRaise s e := by
  obtain ⟨-, rfl⟩ := translateAddr_error_iff.mp unmapped
  trivial

theorem canRaise_of_byte {s : State} {la : Word} {e : Exc} (failed : memReadByte s la = .error e) : CanRaise s e := by
  rcases memReadByte_error_iff.mp failed with unmapped | ⟨pa, placed, outside, rfl⟩
  · exact canRaise_of_unmapped unmapped
  · exact ⟨outside, la, pa, placed, .inl rfl⟩

/-- The decoder fails with an illegal opcode byte, or with the failure of one of the bytes. -/
theorem decodeWith_error {bad : Byte → Exc} {byteAt : Nat → Except Exc Byte} {e : Exc}
    (failed : decodeWith bad byteAt = .error e) :
    (∃ op, byteAt 0 = .ok op ∧ Opcode.ofByte? op = none ∧ e = bad op) ∨ ∃ k, byteAt k = .error e := by
  rcases attempt_bind_error_iff.mp failed with opcode | ⟨op, opcode, rest⟩
  · exact .inr ⟨0, opcode⟩
  · cases selected : Opcode.ofByte? op with
    | none =>
      rw [selected] at rest
      cases rest
      exact .inl ⟨op, opcode, selected, rfl⟩
    | some o =>
      rw [selected] at rest
      cases o with
      | halt => cases rest
      | beq =>
        simp only [attempt_bind_error_iff] at rest
        rcases rest with first | ⟨_, -, second | ⟨_, -, third | ⟨_, -, ⟨⟩⟩⟩⟩
        · exact .inr ⟨1, first⟩
        · exact .inr ⟨2, second⟩
        · exact .inr ⟨3, third⟩
      | loadWord | storeWord | add | sub =>
        simp only [attempt_bind_error_iff] at rest
        rcases rest with first | ⟨_, -, second | ⟨_, -, ⟨⟩⟩⟩
        · exact .inr ⟨1, first⟩
        · exact .inr ⟨2, second⟩

theorem fetchInstr_canRaise {s : State} {e : Exc} (failed : fetchInstr s = .error e) : CanRaise s e := by
  rcases decodeWith_error failed with ⟨op, opcode, illegal, rfl⟩ | ⟨k, failed⟩
  · exact ⟨(fetchByte_zero s).symm.trans opcode, illegal⟩
  · exact canRaise_of_byte failed

theorem LoadStoreFault.canRaise {s : State} {i : Instr} {reg addr : Byte} {e : Exc} (fault : LoadStoreFault s reg addr e)
    (fetched : fetchInstr s = .ok i) (form : registerOperands i = [reg]) : CanRaise s e := by
  rcases fault with ⟨large, rfl⟩ | ⟨-, unmapped⟩ | ⟨-, pa, placed, ⟨outside, rfl⟩ | ⟨last, rfl⟩⟩
  · exact ⟨i, fetched, (firstBadRegister_single form).mpr ⟨large, rfl⟩⟩
  · exact canRaise_of_unmapped unmapped
  · exact ⟨outside, operandAddr addr, pa, placed, .inl rfl⟩
  · exact ⟨last.le, operandAddr addr, pa, placed, .inr rfl⟩

theorem RegisterPairFault.canRaise {s : State} {i : Instr} {reg1 reg2 : Byte} {e : Exc}
    (fault : RegisterPairFault reg1 reg2 e) (fetched : fetchInstr s = .ok i)
    (form : registerOperands i = [reg1, reg2]) : CanRaise s e := by
  obtain ⟨b, rfl⟩ : ∃ b, e = .invalidRegister b := by
    rcases fault with ⟨-, rfl⟩ | ⟨-, -, rfl⟩
    · exact ⟨reg1, rfl⟩
    · exact ⟨reg2, rfl⟩
  exact ⟨i, fetched, (firstBadRegister_pair form).mpr fault⟩

/-- Everything a fetched instruction can do to the control state. -/
theorem exec_control_or_raises {s t : State} {i : Instr} (fetched : fetchInstr s = .ok i) (done : exec i s = .next t) :
    t = s.stopCurrent.advancePc 1 ∨ SameControl s t ∨ ∃ e, CanRaise s e ∧ t = takeFault s e := by
  refine or_iff_not_imp_left.mpr fun notHalt => ?_
  cases i with
  | loadWord reg addr =>
    rcases execLoadWord_cases done with ⟨r, pa, -, -, -, rfl⟩ | ⟨e, fault, rfl⟩
    · exact .inl (writeReg_cycle_frame s 2 r _).2
    · exact .inr ⟨e, fault.canRaise fetched rfl, rfl⟩
  | storeWord reg addr =>
    rcases execStoreWord_cases done with ⟨r, pa, -, -, -, rfl⟩ | ⟨e, fault, rfl⟩
    · exact .inl ⟨rfl, rfl, rfl, rfl⟩
    · exact .inr ⟨e, fault.canRaise fetched rfl, rfl⟩
  | add reg1 reg2 | sub reg1 reg2 =>
    rcases registerOperation_cases done with ⟨d, r, -, -, rfl⟩ | ⟨e, fault, rfl⟩
    · exact .inl (writeReg_cycle_frame s 2 d _).2
    · exact .inr ⟨e, fault.canRaise fetched rfl, rfl⟩
  | beq reg1 reg2 addr =>
    rcases execBeq_cases done with ⟨a, b, -, -, rfl⟩ | ⟨e, fault, rfl⟩
    · split <;> exact .inl ⟨rfl, rfl, rfl, rfl⟩
    · exact .inr ⟨e, fault.canRaise fetched rfl, rfl⟩
  | halt => exact absurd (execHalt_cases done) notHalt

/-- Everything a cycle can do to the control state: a HALT, nothing, or a fault that the spec gives it. -/
theorem step_control_or_raises {s t : State} (running : s.Running) (stepped : step s = .next t) :
    t = s.stopCurrent.advancePc 1 ∨ SameControl s t ∨ ∃ e, CanRaise s e ∧ t = takeFault s e := by
  rcases step_running_cases running stepped with ⟨i, fetched, done⟩ | ⟨e, failed, rfl⟩
  · exact exec_control_or_raises fetched done
  · exact .inr (.inr ⟨e, fetchInstr_canRaise failed, rfl⟩)

/-- A cycle that ends with a cause the latch did not hold has raised a fault of that cause. -/
theorem step_new_cause {s t : State} (running : s.Running) (stepped : step s = .next t)
    (newly : t.faultCause ≠ s.faultCause) : ∃ e, CanRaise s e ∧ t = takeFault s e := by
  rcases step_control_or_raises running stepped with rfl | ⟨-, kept, -, -⟩ | raised
  · exact absurd rfl newly
  · exact absurd kept newly
  · exact raised

/-! ## The statements about single faults -/

/-- Settles O9: the fetch rejects the byte before it reads another; and a cycle that newly latches the cause has raised it
at the byte fetched at PC. -/
theorem illegalOpcodeRaisesInvalidOpcode : Obligations.IllegalOpcodeRaisesInvalidOpcode := by
  refine ⟨rfl, fun s op running opcode => ⟨fun illegal => ?_, fun legal clear t stepped latched => ?_⟩⟩
  · refine step_of_fetch_error (e := .invalidOpcode op) running ?_
    simp [fetchInstr, decodeWith, opcode, ofByte?_eq_none_iff.mpr illegal]
  · obtain ⟨e, raised, rfl⟩ := step_new_cause running stepped (latched ▸ clear.symm)
    cases e with
    | invalidOpcode op' =>
      obtain ⟨opcode', illegal⟩ := raised
      cases opcode.symm.trans opcode'
      exact ofByte?_eq_none_iff.mp illegal legal
    | _ => cases latched

/-- Settles O11: every instruction checks its register bytes first (`exec_invalidRegister`); and a cycle that newly latches
the cause has raised it for such an instruction. -/
theorem badRegisterByteRaisesInvalidRegister : Obligations.BadRegisterByteRaisesInvalidRegister := by
  refine ⟨rfl, fun s running => ⟨fun i b fetched bad => ?_, fun t stepped clear latched => ?_⟩⟩
  · rw [step_of_fetched running fetched, exec_invalidRegister bad]
  · obtain ⟨e, raised, rfl⟩ := step_new_cause running stepped (latched ▸ clear.symm)
    cases e with
    | invalidRegister b =>
      obtain ⟨i, fetched, bad⟩ := raised
      exact ⟨i, b, fetched, bad, rfl⟩
    | _ => cases latched

/-- Settles O30: a cycle that ends with a cause latched, from a clear latch, has taken a fault. -/
theorem faultsArePrecise : Obligations.FaultsArePrecise := by
  intro s t running clear stepped latched
  obtain ⟨e, -, rfl⟩ := step_new_cause running stepped (clear ▸ latched)
  exact takeFault_eq_faultEntry s e

end Sys2Proof.Machine
end

section
/-! SUPPORT. The invariant: at power-on and in the flat set-up, across a start and across a step, and so along the life of
the machine (spec/70_reset_and_hazards.md R160 to R165). -/

namespace Sys2Proof.Machine

/-! ## Process records by their ids -/

/-- A change of the records that keeps their ids keeps what holds of every id. -/
theorem procs_forall_of_ids {procs procs' : List Proc} {P : Nat → Prop} (same : procs'.map Proc.id = procs.map Proc.id)
    (holds : ∀ p ∈ procs, P p.id) : ∀ p ∈ procs', P p.id := by
  rw [← List.forall_mem_map] at holds ⊢
  rwa [same]

/-- A change of the records that keeps their ids keeps which ids have a record. -/
theorem procs_exists_of_ids {procs procs' : List Proc} {pid : Nat} (same : procs'.map Proc.id = procs.map Proc.id) :
    (∃ p ∈ procs', p.id = pid) ↔ ∃ p ∈ procs, p.id = pid := by
  rw [← List.mem_map, ← List.mem_map, same]

/-! ## Across a step -/

/-- Entries in range place every address far enough below 131072 for the cell after it (spec/10_state.md R17). -/
theorem State.Inv.reaches_lt {s : State} {a : Nat} (inv : s.Inv) (reached : s.Reaches a) : a < 131072 := by
  obtain ⟨la, pa, placed, cell⟩ := reached
  obtain ⟨e, member, hit, rfl⟩ := translateAddr_ok_entry placed
  have address := la.isLt
  rcases inv.tableInRange e member with ⟨-, -, -, base⟩ | ⟨-, -, -, -, base⟩ <;> omega

/-- A fault that a cycle can raise leaves a value of its cause in the latch. -/
theorem CanRaise.latchOk {s : State} {e : Exc} (inv : s.Inv) (raised : CanRaise s e) : (takeFault s e).LatchOk := by
  cases e with
  | translationFault la => exact la.isLt
  | invalidOpcode op =>
    refine ⟨op.isLt, ?_⟩
    rw [takeFault_faultInfo, Exc.info, BitVec.ofNat_toNat, BitVec.setWidth_eq]
    exact raised.2
  | invalidRegister r =>
    obtain ⟨i, -, bad⟩ := raised
    have large := List.find?_some bad
    exact ⟨of_decide_eq_true large, r.isLt⟩
  | physicalRangeFault pa => exact ⟨raised.1, inv.reaches_lt raised.2⟩

/-- A step writes only cells that exist, and keeps the canonical form. -/
theorem State.Inv.step_mem {s t : State} (inv : s.Inv) (running : s.Running) (stepped : step s = .next t) :
    t.mem.wf ∧ ∀ c ∈ t.mem, c.1 < s.physSize := by
  rcases step_running_cases running stepped with ⟨i, -, done⟩ | ⟨e, -, rfl⟩
  · rcases exec_mem_cases done with kept | ⟨reg, addr, pa, v, -, -, inside, written⟩
    · rw [kept]
      exact ⟨inv.memCanonical, inv.memInside⟩
    · rw [written]
      refine ⟨Memory.write_wf _ _ (Memory.write_wf _ _ inv.memCanonical), fun c member => ?_⟩
      rcases Memory.mem_write member with rfl | member
      · exact inside
      · rcases Memory.mem_write member with rfl | old
        · exact Nat.lt_of_succ_lt inside
        · exact inv.memInside c old
  · exact ⟨inv.memCanonical, inv.memInside⟩

theorem State.latchOk_congr {s t : State} (cause : t.faultCause = s.faultCause) (info : t.faultInfo = s.faultInfo)
    (size : t.physSize = s.physSize) : t.LatchOk ↔ s.LatchOk := by
  rw [LatchOk, LatchOk, cause, info, size]

/-- The control state that a step may leave: the one it found, or a halted one with the same ids and a latch that fits. -/
def ControlKept (s t : State) : Prop :=
  SameControl s t ∨ (t.haltFlag = true ∧ t.procs.map Proc.id = s.procs.map Proc.id ∧ t.LatchOk)

theorem ControlKept.ids {s t : State} (kept : ControlKept s t) : t.procs.map Proc.id = s.procs.map Proc.id := by
  rcases kept with ⟨-, -, -, procs⟩ | ⟨-, ids, -⟩
  · rw [procs]
  · exact ids

theorem ControlKept.of_running {s t : State} (kept : ControlKept s t) (running : t.haltFlag = false) :
    s.haltFlag = false ∧ t.procs = s.procs := by
  rcases kept with ⟨flag, -, -, procs⟩ | ⟨halted, -⟩
  · exact ⟨flag.symm.trans running, procs⟩
  · exact absurd (halted.symm.trans running) (by decide)

/-- The invariant, from what a step keeps: the surroundings, memory inside `N`, and the control state. -/
theorem State.Inv.of_kept {s t : State} (inv : s.Inv) (surroundings : SameSurroundings s t)
    (mem : t.mem.wf ∧ ∀ c ∈ t.mem, c.1 < s.physSize) (control : ControlKept s t) : t.Inv := by
  obtain ⟨curPid, tt, nextPid, occ, physSize, abortedLoads⟩ := surroundings
  exact
    { sizeBounds := physSize ▸ inv.sizeBounds
      memCanonical := mem.1
      memInside := physSize ▸ mem.2
      occCanonical := occ ▸ inv.occCanonical
      occInside := by rw [occ, physSize]; exact inv.occInside
      tableInRange := by rw [tt, physSize]; exact inv.tableInRange
      idsIncreasing := control.ids ▸ inv.idsIncreasing
      idsIssued := by
        rw [nextPid]
        exact procs_forall_of_ids (P := fun id => 1 ≤ id ∧ id < s.nextPid) control.ids inv.idsIssued
      nextPositive := nextPid ▸ inv.nextPositive
      latchOk := by
        rcases control with ⟨-, cause, info, -⟩ | ⟨-, -, latch⟩
        · exact (latchOk_congr cause info physSize).mpr inv.latchOk
        · exact latch
      faultHalts := fun latched => by
        rcases control with ⟨flag, cause, -, -⟩ | ⟨halted, -, -⟩
        · exact flag.trans (inv.faultHalts (cause ▸ latched))
        · exact halted
      runningCurrent := fun running => by
        obtain ⟨before, procs⟩ := control.of_running running
        rw [procs, curPid]
        exact inv.runningCurrent before
      abortedRecorded := fun pid aborted =>
        (procs_exists_of_ids control.ids).mpr (inv.abortedRecorded pid (abortedLoads ▸ aborted))
      abortedIdle := fun running => by
        rw [curPid, abortedLoads]
        exact inv.abortedIdle (control.of_running running).1 }

/-- A cycle keeps the control state in the sense of the invariant: a HALT keeps the latch, and a fault latches a value of
its cause. -/
theorem State.Inv.step_control {s t : State} (inv : s.Inv) (running : s.Running) (stepped : step s = .next t) :
    ControlKept s t := by
  rcases step_control_or_raises running stepped with rfl | same | ⟨e, raised, rfl⟩
  · exact .inr ⟨rfl, setProcState_ids _ _ _, inv.latchOk⟩
  · exact .inl same
  · exact .inr ⟨rfl, setProcState_ids _ _ _, raised.latchOk inv⟩

/-- Settles O47: a halted machine keeps its state, and a cycle keeps the surroundings, memory inside `N` and the control
state. -/
theorem stepKeepsInv : Obligations.StepKeepsInv := by
  intro s t inv stepped
  cases flag : s.haltFlag with
  | true =>
    cases (step_halted flag).symm.trans stepped
    exact inv
  | false =>
    exact inv.of_kept (stepKeepsTheSurroundings s t stepped) (inv.step_mem flag stepped) (inv.step_control flag stepped)

/-! ## At power-on, and across a start -/

/-- Power-on meets the invariant for every `N` in range: its lists are empty and its latch is clear. -/
theorem powerOn_inv {n : Nat} (lower : 1 ≤ n) (upper : n ≤ 65536) : (State.powerOn n).Inv where
  sizeBounds := ⟨lower, upper⟩
  memCanonical := List.Pairwise.nil
  memInside := List.forall_mem_nil _
  occCanonical := List.Pairwise.nil
  occInside := List.forall_mem_nil _
  tableInRange := List.forall_mem_nil _
  idsIncreasing := List.Pairwise.nil
  idsIssued := List.forall_mem_nil _
  nextPositive := Nat.le_refl 1
  latchOk := rfl
  faultHalts := fun _ => rfl
  runningCurrent := fun running => by cases running
  abortedRecorded := List.forall_mem_nil _
  abortedIdle := fun _ => List.not_mem_nil

/-- Settles O46: reset is power-on with 26 cells. -/
theorem resetSatisfiesInv : Obligations.ResetSatisfiesInv := powerOn_inv (by decide) (by decide)

/-- The flat set-up meets the invariant: every cell is written and occupied, and its entry is the one that may have the
length 65536. -/
theorem flat_inv {bytes : List Byte} (lower : 1 ≤ bytes.length) (upper : bytes.length ≤ 65536) :
    (State.flat bytes).Inv :=
  { createProcess_keeps_inv (powerOn_inv lower upper) with
    memCanonical := Memory.writeBytes_wf 0 bytes List.Pairwise.nil
    memInside := fun c member => by
      rcases Memory.mem_writeBytes member with ⟨-, inside⟩ | old
      · rwa [Nat.zero_add] at inside
      · cases old
    occCanonical := List.pairwise_lt_range
    occInside := fun _ taken => List.mem_range.mp taken
    tableInRange := fun e member => by
      cases List.mem_singleton.mp member
      rcases Nat.lt_or_eq_of_le upper with short | largest
      · exact .inl ⟨Nat.le_refl 1, Nat.zero_lt_succ _, short, Nat.zero_lt_succ _⟩
      · exact .inr ⟨largest, Nat.le_refl 1, rfl, rfl, rfl⟩ }

/-- A start that is accepted keeps the invariant: it sets the record of a process whose load did not run out of memory. -/
theorem start_keeps_inv {s t : State} {pid : Nat} (inv : s.Inv) (accepted : start s pid = .next t) : t.Inv := by
  obtain ⟨-, recorded, notAborted, rfl⟩ := start_next_iff.mp accepted
  have ids := setProcState_ids s.procs pid .running
  exact
    { inv with
      idsIncreasing := ids ▸ inv.idsIncreasing
      idsIssued := procs_forall_of_ids (P := fun id => 1 ≤ id ∧ id < s.nextPid) ids inv.idsIssued
      latchOk := rfl
      faultHalts := fun latched => absurd rfl latched
      runningCurrent := fun _ => by
        obtain ⟨p, member, rfl⟩ := recorded
        exact mem_setProcState.mpr ⟨p, member, (if_pos rfl).symm⟩
      abortedRecorded := fun q aborted => (procs_exists_of_ids ids).mpr (inv.abortedRecorded q aborted)
      abortedIdle := fun _ => notAborted }

/-! ## Along the machine's life -/

/-- Settles O49, by induction on the machine's life: each of its beginnings meets the invariant, and each of its
operations keeps it. -/
theorem reachableStatesSatisfyInv : Obligations.ReachableStatesSatisfyInv := by
  intro s reached
  induction reached with
  | powerOn n lower upper => exact powerOn_inv lower upper
  | flat bytes lower upper => exact flat_inv lower upper
  | load s t image pid _ idle done inv => exact loadKeepsInv s t image inv idle (.inl ⟨pid, done⟩)
  | loadOutOfMemory s t image _ idle failed inv => exact loadKeepsInv s t image inv idle (.inr failed)
  | register s e _ _ range inv => exact ttRegister_keeps_inv inv range
  | start s t pid _ accepted inv => exact start_keeps_inv inv accepted
  | step s t _ stepped inv => exact stepKeepsInv s t inv stepped

/-! ## The statements about power-on and the start -/

/-- Settles O44: the fields are power-on's own, a cell that nothing has written reads its `MEM_INIT` byte, and a halted
machine stays where it is. -/
theorem powerOnState : Obligations.PowerOnState := by
  intro n
  refine ⟨rfl, rfl, rfl, rfl, rfl, rfl, rfl, fun pa inside => ⟨?_, List.not_mem_nil⟩, fun pa outside => ?_,
    core_run_halted rfl⟩
  · exact physRead_ok_iff.mpr ⟨inside, rfl⟩
  · exact physRead_error_iff.mpr ⟨outside, rfl⟩

/-- Settles O45: the accepted case is `start_next_iff`, and each refusal is the first condition that holds. -/
theorem startFollowsItsRule : Obligations.StartFollowsItsRule := by
  intro s pid
  refine ⟨fun halted recorded clear => ?_, fun running => ?_, fun halted unknown => ?_, fun halted recorded aborted => ?_⟩
  · exact start_next_iff.mpr ⟨halted, recorded, clear, rfl⟩
  · simp [start, running]
  · have noRecord : s.procs.any (fun p => p.id == pid) = false := by simpa using unknown
    simp [start, halted, noRecord]
  · have known : s.procs.any (fun p => p.id == pid) = true := by simpa using recorded
    simp [start, halted, known, aborted]

end Sys2Proof.Machine
end

section
/-! SUPPORT. What no cycle reads: two running machines that agree on the registers, the current process, the table, memory
and `N` make the same cycle (spec/10_state.md R15 to R21, spec/20_memory.md R33). -/

namespace Sys2Proof.Machine

/-- The machine with the fields of another that no cycle reads: the fault latch, the process records, the next id, the
occupancy markers and the aborted loads. -/
def State.withHidden (s w : State) : State :=
  { s with
    faultCause := w.faultCause, faultInfo := w.faultInfo, procs := w.procs, nextPid := w.nextPid, occ := w.occ
    abortedLoads := w.abortedLoads }

/-- The outcome `o` is what the cycle that leads from `s` to `t` is with the hidden fields of `w`: the same completion
with those fields kept, the same fault, or a HALT. -/
def CycleWithHidden (s w t : State) (o : Host.Outcome State Fault Refusal) : Prop :=
  (SameControl s t ∧ o = .next (t.withHidden w)) ∨
  (∃ e, t = takeFault s e ∧ o = .next (takeFault (s.withHidden w) e)) ∨
  (t = s.stopCurrent.advancePc 1 ∧ o = .next ((s.withHidden w).stopCurrent.advancePc 1))

theorem State.sourceValue_withHidden (s w : State) (n : Nat) (r : Reg) :
    (s.withHidden w).sourceValue n r = s.sourceValue n r := by
  cases r <;> rfl

theorem State.afterResult_withHidden (s w : State) (v : Word) (d : Reg) :
    (s.withHidden w).afterResult v d = (s.afterResult v d).withHidden w := by
  cases d <;> rfl

theorem sameControl_afterResult (s : State) (v : Word) (d : Reg) : SameControl s (s.afterResult v d) := by
  cases d <;> exact ⟨rfl, rfl, rfl, rfl⟩

/-- Every instruction completes on the same condition and with the same result, or takes the same fault. -/
theorem exec_withHidden {s t : State} {i : Instr} (done : exec i s = .next t) (w : State) :
    CycleWithHidden s w t (exec i (s.withHidden w)) := by
  cases i with
  | loadWord reg addr =>
    rcases execLoadWord_cases done with ⟨r, pa, rfl, placed, inside, -⟩ | ⟨e, fault, rfl⟩
    · cases (exec_loadWord_completes r placed inside).symm.trans done
      refine .inl ⟨sameControl_afterResult s _ r, ?_⟩
      rw [← State.afterResult_withHidden]
      exact exec_loadWord_completes (s := s.withHidden w) r placed inside
    · exact .inr (.inl ⟨e, rfl, execLoadWord_traps (s := s.withHidden w) fault⟩)
  | storeWord reg addr =>
    rcases execStoreWord_cases done with ⟨r, pa, rfl, placed, inside, -⟩ | ⟨e, fault, rfl⟩
    · cases (exec_storeWord_completes r placed inside).symm.trans done
      refine .inl ⟨⟨rfl, rfl, rfl, rfl⟩, ?_⟩
      rw [exec_storeWord_completes (s := s.withHidden w) r placed inside, State.sourceValue_withHidden]
      rfl
    · exact .inr (.inl ⟨e, rfl, execStoreWord_traps (s := s.withHidden w) fault⟩)
  | add reg1 reg2 | sub reg1 reg2 =>
    rcases registerOperation_cases done with ⟨d, r, rfl, rfl, -⟩ | ⟨e, fault, rfl⟩
    · cases (registerOperation_completes _ s d r).symm.trans done
      refine .inl ⟨sameControl_afterResult s _ d, ?_⟩
      simp only [← State.afterResult_withHidden, ← State.sourceValue_withHidden s w]
      exact registerOperation_completes _ (s.withHidden w) d r
    · exact .inr (.inl ⟨e, rfl, registerPair_traps fault _⟩)
  | beq reg1 reg2 addr =>
    rcases execBeq_cases done with ⟨a, b, rfl, rfl, -⟩ | ⟨e, fault, rfl⟩
    · cases (exec_beq_completes s a b addr).symm.trans done
      refine .inl ⟨⟨rfl, rfl, rfl, rfl⟩, ?_⟩
      rw [exec_beq_completes, State.sourceValue_withHidden, State.sourceValue_withHidden]
      rfl
    · exact .inr (.inl ⟨e, rfl, registerPair_traps fault _⟩)
  | halt => exact .inr (.inr ⟨execHalt_cases done, exec_halt (s.withHidden w)⟩)

/-- The same for a whole cycle: the fetch reads none of the hidden fields. -/
theorem step_withHidden {s t : State} (running : s.Running) (stepped : step s = .next t) (w : State) :
    CycleWithHidden s w t (step (s.withHidden w)) := by
  have fetch : fetchInstr (s.withHidden w) = fetchInstr s := rfl
  rcases step_running_cases running stepped with ⟨i, fetched, done⟩ | ⟨e, failed, rfl⟩
  · rw [step_of_fetched (s := s.withHidden w) running (fetch.trans fetched)]
    exact exec_withHidden done w
  · exact .inr (.inl ⟨e, rfl, step_of_fetch_error (s := s.withHidden w) running (fetch.trans failed)⟩)

/-- Settles O32: the second machine is the first with its own hidden fields, and `step_withHidden` gives its cycle. -/
theorem controlStateIsNotObserved : Obligations.ControlStateIsNotObserved := by
  intro s u t running runningU pc r1 r2 curPid tt mem physSize stepped
  have own : u = s.withHidden u := by
    rw [State.withHidden, ← pc, ← r1, ← r2, ← curPid, ← tt, ← mem, ← physSize, running.trans runningU.symm]
  rw [own]
  rcases step_withHidden running stepped u with ⟨⟨flag, cause, info, procs⟩, seen⟩ | ⟨e, rfl, seen⟩ | ⟨rfl, seen⟩
  · obtain ⟨keptPid, keptTable, -, -, keptSize, -⟩ := stepKeepsTheSurroundings s t stepped
    have goesOn : t.haltFlag = false := flag.trans running
    refine ⟨_, seen, ?_, .inr ⟨cause, info, rfl, rfl⟩⟩
    simp [State.withHidden, goesOn, keptPid, keptTable, keptSize]
  · exact ⟨_, seen, rfl, .inl ⟨e.cause, e.info, e.cause_ne_none, rfl, rfl⟩⟩
  · exact ⟨_, seen, rfl, .inr ⟨rfl, rfl, rfl, rfl⟩⟩

end Sys2Proof.Machine
end

section
/-! SUPPORT. What every step answers, and an instruction placed with `withFetchWord` (spec/40_execution_loop.md R80 to
R88). -/

namespace Sys2Proof.Machine

/-- Settles O6: `core_run_halted`, the run of a halted machine. -/
theorem haltedMachineKeepsItsState : Obligations.HaltedMachineKeepsItsState :=
  fun _ k halted => core_run_halted halted k

/-- The end of a cycle is a next state, whether the cycle completes or takes a fault. -/
theorem completeCycle_total (s : State) (r : Except Exc State) : ∃ t, completeCycle s r = .next t := by
  cases r with
  | ok u => exact ⟨_, completeCycle_ok s u⟩
  | error e => exact ⟨_, completeCycle_error s e⟩

/-- Every instruction's meaning is the end of a cycle. -/
theorem exec_total (i : Instr) (s : State) : ∃ t, exec i s = .next t := by
  cases i with
  | halt => exact ⟨_, exec_halt s⟩
  | _ => exact completeCycle_total s _

/-- Settles O7: a halted machine answers itself; a running one ends its cycle or takes the fault of its fetch. -/
theorem everyStepAnswersANextState : Obligations.EveryStepAnswersANextState := by
  intro s
  cases running : s.haltFlag with
  | true => exact ⟨s, step_halted running⟩
  | false =>
    cases fetched : fetchInstr s with
    | ok i =>
      rw [step_of_fetched running fetched]
      exact exec_total i s
    | error e => exact ⟨_, step_of_fetch_error running fetched⟩

/-! ## An instruction placed with `withFetchWord` -/

/-- The placed program's process has the one flat entry. -/
theorem withProgram_flat (s : State) (bytes : List Byte) :
    (s.withProgram bytes).tt.filter (fun e => e.pid == (s.withProgram bytes).curPid) =
      [{ pid := (s.withProgram bytes).curPid, logicalBase := 0, length := (s.withProgram bytes).physSize
         physicalBase := 0 }] := by
  simp [State.withProgram, List.filter_filter]

/-- Byte `k` of a placed program is read at the logical address `k`. -/
theorem memReadByte_withProgram (s : State) {bytes : List Byte} {la : Word} {b : Byte}
    (own : bytes[la.toNat]? = some b) : memReadByte (s.withProgram bytes) la = .ok b := by
  obtain ⟨inProgram, -⟩ := List.getElem?_eq_some_iff.mp own
  have inside : la.toNat < (s.withProgram bytes).physSize := lt_max_of_lt_right inProgram
  rw [((flatTableIsTheIdentity _ la (withProgram_flat s bytes)).1 inside).2]
  show Except.ok ((s.mem.writeBytes 0 bytes).read la.toNat) = _
  simp [Memory.read_writeBytes, own]

/-- A number that decodes to an instruction has the bytes of its encoding first. -/
theorem decodeTableWord_eq_some {nbits w : Nat} {i : Instr} (decoded : decodeTableWord nbits w = some i) :
    encode i <+: tableWordBytes nbits w := by
  rw [decodeTableWord] at decoded
  split at decoded
  next j rest ok =>
    cases decoded
    exact ⟨rest, (decode_eq_ok.mp ok).symm⟩
  next => cases decoded

/-- Settles O5: PC is 0 and the bytes of the encoding stand in the cells from 0 up. -/
theorem fetchWordRunsTheInstruction : Obligations.FetchWordRunsTheInstruction := by
  intro s nbits w i decoded
  refine step_of_fetched rfl (fetchInstr_of_bytes fun k b own => memReadByte_withProgram s ?_)
  obtain ⟨short, -⟩ := List.getElem?_eq_some_iff.mp own
  have length := encode_length_le i
  have address : (0#16 + BitVec.ofNat 16 k).toNat = k := by
    rw [BitVec.zero_add, BitVec.toNat_ofNat]
    omega
  show (tableWordBytes nbits w)[(0#16 + BitVec.ofNat 16 k).toNat]? = some b
  obtain ⟨rest, bytes⟩ := decodeTableWord_eq_some decoded
  rw [address, ← bytes, List.getElem?_append_left short, own]

end Sys2Proof.Machine
end

section
/-! SUPPORT. Launching a run: when an image is malformed, and what the flat set-up starts from
(spec/70_reset_and_hazards.md R162 to R171). -/

namespace Sys2Proof.Machine

/-- The segments of an image end loaded or out of memory. -/
theorem loadSegments_ne_malformedImage (image : List Byte) (pid : Nat) (hs : List SegmentHeader) (s : State) :
    loadSegments image pid hs s ≠ .malformedImage := by
  induction hs generalizing s with
  | nil => simp [loadSegments]
  | cons h hs ih =>
    rw [loadSegments]
    cases loadSegment image pid s h with
    | none => simp
    | some t => exact ih t

theorem load_eq_malformedImage {s : State} {image : List Byte} :
    load s image = .malformedImage ↔ ¬ imageValid image = true := by
  rw [load]
  split_ifs with valid
  · exact iff_of_false (loadSegments_ne_malformedImage _ _ _ _) (not_not_intro valid)
  · exact iff_of_true rfl valid

/-- The three conditions of a valid image, on its bytes (spec/70_reset_and_hazards.md R171). -/
theorem imageValid_iff {image : List Byte} :
    imageValid image = true ↔ 1 ≤ image.length ∧ 1 + 3 * (image.getD 0 0).toNat ≤ image.length ∧
      ∀ k, k < (image.getD 0 0).toNat →
        1 + 3 * (image.getD 0 0).toNat + (image.getD (3 + 3 * k) 0).toNat + (image.getD (2 + 3 * k) 0).toNat
          ≤ image.length := by
  simp only [imageValid, imageHeaders, Bool.and_eq_true, decide_eq_true_eq, List.all_map, List.all_eq_true,
    List.mem_range, Function.comp, and_assoc]
  rfl

/-- Settles O52: the three conditions are the failures of the three of `imageValid_iff`. -/
theorem malformedImageConditions : Obligations.MalformedImageConditions := by
  intro s image
  rw [load_eq_malformedImage, imageValid_iff, not_and_or, not_and_or]
  push Not
  rfl

/-- What the flat launch starts: the flat set-up, running, with registers 0. -/
theorem launchFlat_eq (bytes : List Byte) :
    launchFlat bytes = .next { State.flat bytes with curPid := 1, haltFlag := false } := rfl

/-- Settles O56: the fields are those of `launchFlat_eq`, and the one entry is the identity. -/
theorem flatLaunchReadsThePreloadedBytes : Obligations.FlatLaunchReadsThePreloadedBytes := by
  intro bytes _
  refine ⟨_, launchFlat_eq bytes, rfl, rfl, rfl, rfl, rfl, rfl, rfl, rfl, fun a => List.mem_range, fun la b own => ?_⟩
  obtain ⟨inside, -⟩ := List.getElem?_eq_some_iff.mp own
  refine memReadByte_ok_iff.mpr ⟨la.toNat, ?_, inside, ?_⟩
  · exact (translateAddr_flat rfl la).trans (if_pos inside)
  · show (Memory.writeBytes [] 0 bytes).read la.toNat = b
    simp [Memory.read_writeBytes, own]

end Sys2Proof.Machine
end
